-- ==== Sys2Proof/Word.lean ====
section
/-! DEFINITION. The two word types of the block: the 16-bit operation word presented on `op[15:0]`
(30_encoding.md R65) and the 8-bit cell code or byte (43_display.md R140, 20_memory.md R54). -/

namespace Sys2Proof

/-- A 16-bit operation word (30_encoding.md R65). -/
abbrev Word := BitVec 16

/-- An 8-bit value: a display cell code (R140), or half a word where a word is serialised (R54). -/
abbrev Byte := BitVec 8

end Sys2Proof
end

