-- ==== Sys2Proof/Config.lean ====
section
/-! DEFINITION. The parameters that the model takes as arguments (00_scope.md R8), and, for this hardware, the shape of
the state, the OPEN parameters and the power-up draws. An `opaque` constant has no body: no proof can see its value, so
a claim about it holds whatever it is. The legal values, and this hardware's whole argument `Config.params`, stand in
Machine/Params.lean. -/

namespace Sys2Proof

/-- The parameters of R8 that a rule of the state machine reads: the argument of the state and of every operation. The
rates of R8, which no rule reads, are `Machine.Rates` in Safety.lean. -/
structure Params where
  /-- NUM_BUTTONS, the number of debounced inputs. -/
  numButtons : Nat
  /-- DEB_W, the width of a debounce history. -/
  debW : Nat
  /-- DEB_N, the consecutive low samples of a press. -/
  debN : Nat
  /-- DEB_M, the settled-high samples before them. -/
  debM : Nat
  /-- The draws DEB_RESET[i]: `debReset k i` is what history `i` holds after the `k`-th reset (log 4, log 6). -/
  debReset : Nat → Nat → BitVec debW
  /-- QDEC_TABLE, indexed by the history `{prevA, prevB, curA, curB}`. -/
  qdecTable : BitVec 4 → Int
  /-- The draws QDEC_RESET[e]: `qdecReset k e` is what history `e` holds after the `k`-th reset (log 4, log 6). -/
  qdecReset : Nat → Nat → BitVec 4
  /-- SNOOZE_OFFSET, the seconds a snooze adds. -/
  snoozeOffset : Nat
  /-- COLON_GLYPH, the code of the lit colon. -/
  colonGlyph : Byte
  /-- SEG_ACTIVE_LOW, whether the segment pins are driven inverted. -/
  segActiveLow : Bool
  /-- DWELL_LEN, the MUX.STEP operations a cell stays lit. -/
  dwellLen : Nat
  /-- BLANK_LEN, the MUX.STEP operations of the blanking interval. -/
  blankLen : Nat

/-- NUM_BUTTONS, the number of debounced inputs: 8 for this hardware (R8, decision D8; log 9). -/
abbrev Config.numButtons : Nat := 8

/-- DEB_W, the width of a debounce history: 16 for this hardware (R8, decision D6; log 9). -/
abbrev Config.debW : Nat := 16

/-- The number of encoders: QH[e] exists for e in 0..1 (10_state.md R31). -/
abbrev Config.numEncoders : Nat := 2

/-- The number of display cells (10_state.md R32). -/
abbrev Config.numCells : Nat := 5

/-- The draws DEB_RESET[i] (10_state.md R30, 40_debounce.md R97): `debReset k i` is what history `i` holds after
the `k`-th reset, power-up being reset 0. A free value (log 4, log 5, log 6). -/
opaque Config.debReset : Nat → Nat → BitVec Config.debW

/-- The draws QDEC_RESET[e] (10_state.md R31, 41_quadrature.md R106): `qdecReset k e` is what history `e` holds
after the `k`-th reset. A free value (log 4, log 6). -/
opaque Config.qdecReset : Nat → Nat → BitVec 4

/-- How far DWELL_LEN exceeds its least legal value 1. OPEN (R8, decision D27; log 7). -/
opaque Config.dwellExtra : Nat

/-- DWELL_LEN, the MUX.STEP operations a cell stays lit: OPEN, at least 1 (R8, decision D27; log 7). -/
def Config.dwellLen : Nat := Config.dwellExtra + 1

/-- BLANK_LEN, the MUX.STEP operations of the blanking interval: OPEN, at least 0 (R8, decision D27; log 7). -/
opaque Config.blankLen : Nat

/-- SEG_ACTIVE_LOW, whether the segment pins are driven inverted: OPEN (R8, decision D26; log 8). -/
opaque Config.segActiveLow : Bool

end Sys2Proof
end

