-- ==== Sys2Proof/Machine/Params.lean ====
section
/-! DEFINITION. The legal values of the parameters (00_scope.md R8, 41_quadrature.md R101), the constants derived from
them (R9), the values that R8 gives for this hardware, and the glyph table (43_display.md R140). -/

namespace Sys2Proof

/-! ### Derived constants (R9) -/

/-- `ones(hi, lo)`: the value of the given width whose bits `hi..lo` are 1 and all others 0, empty when `hi < lo` (R9). -/
def Machine.ones (width hi lo : Nat) : BitVec width := BitVec.ofNat width (2 ^ (hi + 1) - 2 ^ lo)

/-- DEB_PAD = ones(DEB_W-1, DEB_N+DEB_M) (R9). -/
def Params.debPad (P : Params) : BitVec P.debW := Machine.ones P.debW (P.debW - 1) (P.debN + P.debM)

/-- DEB_MATCH = ones(DEB_W-1, DEB_N) (R9). -/
def Params.debMatch (P : Params) : BitVec P.debW := Machine.ones P.debW (P.debW - 1) P.debN

/-! ### Legal values -/

/-- The forward single-bit codes of a history, in the order of one forward Gray cycle (R101). -/
def Machine.forwardCode : Fin 4 → BitVec 4
  | 0 => 0x1
  | 1 => 0x7
  | 2 => 0xE
  | 3 => 0x8

/-- The code of the reverse transition: the previous and the current sample change places (R101). -/
def Machine.reverseCode (code : BitVec 4) : BitVec 4 := code.extractLsb' 0 2 ++ code.extractLsb' 2 2

/-- A legal QDEC_TABLE (R101): +1 at two forward codes half a Gray cycle apart, -1 at their reverses, 0 elsewhere. -/
def Machine.QdecLegal (table : BitVec 4 → Int) : Prop :=
  ∃ k : Fin 4, ∀ code, table code =
    if code = forwardCode k ∨ code = forwardCode (k + 2) then 1
    else if code = reverseCode (forwardCode k) ∨ code = reverseCode (forwardCode (k + 2)) then -1
    else 0

/-- The legal values of R8. The draws, COLON_GLYPH, SEG_ACTIVE_LOW and BLANK_LEN may have any value of their type. -/
structure Params.Legal (P : Params) : Prop where
  numButtons : 1 ≤ P.numButtons ∧ P.numButtons ≤ 16
  debW : 2 ≤ P.debW ∧ P.debW ≤ 32
  debN : 1 ≤ P.debN ∧ P.debN ≤ P.debW - 1
  debM : 1 ≤ P.debM ∧ P.debM ≤ P.debW - P.debN
  qdecTable : Machine.QdecLegal P.qdecTable
  snoozeOffset : 1 ≤ P.snoozeOffset ∧ P.snoozeOffset ≤ 59
  dwellLen : 1 ≤ P.dwellLen

/-! ### This hardware -/

/-- DEB_N is 12 (R8, decision D6; log 9). -/
abbrev Machine.debN : Nat := 12

/-- DEB_M is 1 (R8, decision D6; log 9). -/
abbrev Machine.debM : Nat := 1

/-- SNOOZE_OFFSET is 10 (R8, decision D17; log 9). -/
abbrev Machine.snoozeOffset : Nat := 10

/-- COLON_GLYPH is 0x03 (R8, decision D25; log 9). -/
abbrev Machine.colonGlyph : Byte := 0x03

/-- QDEC_TABLE is the table of 41_quadrature.md R101 (decision D10; log 10). -/
def Machine.qdecTable (code : BitVec 4) : Int :=
  match code.toNat with
  | 0x1 => 1
  | 0x4 => -1
  | 0xB => -1
  | 0xE => 1
  | _ => 0

/-- The parameters of this hardware: the value column of R8, its OPEN entries and the draws being opaque (log 9). -/
abbrev Config.params : Params where
  numButtons := Config.numButtons
  debW := Config.debW
  debN := Machine.debN
  debM := Machine.debM
  debReset := Config.debReset
  qdecTable := Machine.qdecTable
  qdecReset := Config.qdecReset
  snoozeOffset := Machine.snoozeOffset
  colonGlyph := Machine.colonGlyph
  segActiveLow := Config.segActiveLow
  dwellLen := Config.dwellLen
  blankLen := Config.blankLen

/-! ### Glyphs -/

/-- GLYPH, the seven segments a..g of a decimal digit in bits 0..6 (43_display.md R140, decision D25; log 19). -/
def Machine.glyph (digit : Nat) : Byte :=
  match digit with
  | 0 => 0x3F
  | 1 => 0x06
  | 2 => 0x5B
  | 3 => 0x4F
  | 4 => 0x66
  | 5 => 0x6D
  | 6 => 0x7D
  | 7 => 0x07
  | 8 => 0x7F
  | 9 => 0x6F
  | _ => 0x00

end Sys2Proof
end

