-- ==== Sys2Proof/Syntax.lean ====
section
/-! DEFINITION. The 13 operations of the opcode table (30_encoding.md R68), one constructor each, with the
operands of R66; and the four reasons of R70 for which a word is reserved. -/

namespace Sys2Proof

/-- The target of an edit operation (00_scope.md R18): operand 0 selects ClockTime, 1 AlarmSetting. -/
inductive Entity where
  | clk
  | alm
  deriving DecidableEq, Repr

/-- The mode code of FMT and MUX.STEP (00_scope.md R19), in the order of its codes 0..3. -/
inductive Mode where
  | normal
  | setClock
  | setAlarm
  | toggleFormat
  deriving DecidableEq, Repr

/-- Why a word is reserved, in the order 30_encoding.md R70 checks. -/
inductive Reserved where
  /-- OP 0xD, 0xE or 0xF selects no operation (R71). -/
  | reservedOpcode
  /-- A bit the row's mask covers and its pattern holds at 0 is 1 (R72). -/
  | reservedFieldBits
  /-- A DEB.SAMPLE button index of NUM_BUTTONS or more (R72). -/
  | buttonIndexOutOfRange
  /-- The step code 0b10 in ED.MIN or ED.HOUR (R72, 00_scope.md R13). -/
  | reservedStepCode
  deriving DecidableEq, Repr

/-- An operation of the block with its operands as R66 extracts them. The button index and the step code keep
the width of their fields, so the two constraints of R68 are checks (WellFormed.lean). -/
inductive Instr where
  /-- NOP (42_timebase.md R127). -/
  | nop
  /-- DEB.SAMPLE i, lvl (40_debounce.md R91). -/
  | debSample (i : BitVec 4) (lvl : BitVec 1)
  /-- QDEC.STEP e, raw (41_quadrature.md R102). -/
  | qdecStep (e : Fin 2) (raw : BitVec 2)
  /-- TB.TICK (42_timebase.md R110). -/
  | tbTick
  /-- TB.EN b (R114). -/
  | tbEn (b : Bool)
  /-- ED.MIN ent, st (R116). -/
  | edMin (ent : Entity) (st : BitVec 2)
  /-- ED.HOUR ent, st (R117). -/
  | edHour (ent : Entity) (st : BitVec 2)
  /-- ED.MER ent (R118). -/
  | edMer (ent : Entity)
  /-- AL.TEN (R119). -/
  | alTen
  /-- AL.SNOOZE (R120). -/
  | alSnooze
  /-- AL.DISMISS (R122). -/
  | alDismiss
  /-- FMT mode (43_display.md R143). -/
  | fmt (mode : Mode)
  /-- MUX.STEP mode (R148). -/
  | muxStep (mode : Mode)
  deriving DecidableEq, Repr

end Sys2Proof
end

