-- ==== Sys2Proof/WellFormed.lean ====
section
/-! DEFINITION. The extra constraints of the opcode map (30_encoding.md R68, R72): a button index below
NUM_BUTTONS, and a step code other than 0b10. -/

namespace Sys2Proof

/-- The constraint of R68 an operation breaks for a given NUM_BUTTONS, if any, under the reason R70 gives it. -/
def Instr.brokenFor (numButtons : Nat) : Instr → Option Reserved
  | .debSample i _ => if i.toNat < numButtons then none else some .buttonIndexOutOfRange
  | .edMin _ st => if st = 0b10#2 then some .reservedStepCode else none
  | .edHour _ st => if st = 0b10#2 then some .reservedStepCode else none
  | .nop => none
  | .qdecStep _ _ => none
  | .tbTick => none
  | .tbEn _ => none
  | .edMer _ => none
  | .alTen => none
  | .alSnooze => none
  | .alDismiss => none
  | .fmt _ => none
  | .muxStep _ => none

/-- The constraint an operation breaks on this hardware. -/
def Instr.broken (i : Instr) : Option Reserved := i.brokenFor Config.numButtons

/-- An operation some legal word stands for: it breaks no constraint. -/
def Instr.wellFormed (i : Instr) : Bool := i.broken.isNone

end Sys2Proof
end

