-- ==== Sys2Proof/Decode.lean ====
section
/-! DEFINITION. The decoder of 30_encoding.md R70 over the opcode map R68, total on every 16-bit word, rejecting by
the reasons of R70; then the encoder, written from the same map; the serialised form of a word (20_memory.md R54);
and the host's view of the opcode table. -/

namespace Sys2Proof

/-! ### Fields (30_encoding.md R65, R66) -/

/-- OP, bits 15:12. -/
def Word.op (w : Word) : BitVec 4 := w.extractLsb' 12 4

/-- A, bits 11:8. -/
def Word.fieldA (w : Word) : BitVec 4 := w.extractLsb' 8 4

/-- D, bits 7:0. -/
def Word.fieldD (w : Word) : BitVec 8 := w.extractLsb' 0 8

/-- `ent`: 0 is ClockTime, 1 is AlarmSetting (R66). -/
def Entity.ofBit (b : Bool) : Entity := if b then .alm else .clk

/-- The bit of an entity selector (R66). -/
def Entity.bit : Entity → Bool
  | .clk => false
  | .alm => true

/-- `mode`: the codes of 00_scope.md R19. -/
def Mode.ofCode (c : BitVec 2) : Mode :=
  if c = 0 then .normal else if c = 1 then .setClock else if c = 2 then .setAlarm else .toggleFormat

/-- The 2-bit code of a mode (00_scope.md R19). -/
def Mode.code : Mode → BitVec 2
  | .normal => 0
  | .setClock => 1
  | .setAlarm => 2
  | .toggleFormat => 3

/-- `e`: 0 is Encoder 1, 1 is Encoder 2 (R66). -/
def encoderOfBit (b : Bool) : Fin 2 := if b then 1 else 0

/-! ### The opcode map -/

/-- One row of the opcode map: a word `w` selects it when `w &&& mask = pattern` (R68). -/
structure Row where
  pattern : Word
  mask : Word
  /-- The operation with the operands of R66 taken from the word. -/
  build : Word → Instr

/-- The opcode map R68, row by row. -/
def opcodeMap : List Row := [
  ⟨0x0000, 0xFFFF, fun _ => .nop⟩,
  ⟨0x1000, 0xF0FE, fun w => .debSample w.fieldA (w.fieldD.extractLsb' 0 1)⟩,
  ⟨0x2000, 0xFEFC, fun w => .qdecStep (encoderOfBit (w.fieldA.getLsbD 0)) (w.fieldD.extractLsb' 0 2)⟩,
  ⟨0x3000, 0xFFFF, fun _ => .tbTick⟩,
  ⟨0x4000, 0xFFFE, fun w => .tbEn (w.fieldD.getLsbD 0)⟩,
  ⟨0x5000, 0xFEFC, fun w => .edMin (.ofBit (w.fieldA.getLsbD 0)) (w.fieldD.extractLsb' 0 2)⟩,
  ⟨0x6000, 0xFEFC, fun w => .edHour (.ofBit (w.fieldA.getLsbD 0)) (w.fieldD.extractLsb' 0 2)⟩,
  ⟨0x7000, 0xFEFF, fun w => .edMer (.ofBit (w.fieldA.getLsbD 0))⟩,
  ⟨0x8000, 0xFFFF, fun _ => .alTen⟩,
  ⟨0x9000, 0xFFFF, fun _ => .alSnooze⟩,
  ⟨0xA000, 0xFFFF, fun _ => .alDismiss⟩,
  ⟨0xB000, 0xFFFC, fun w => .fmt (.ofCode (w.fieldD.extractLsb' 0 2))⟩,
  ⟨0xC000, 0xFFFC, fun w => .muxStep (.ofCode (w.fieldD.extractLsb' 0 2))⟩]

/-- The row whose OP is the word's, if any (R69, R70). -/
def rowOf (w : Word) : Option Row := opcodeMap.find? fun r => r.pattern.op == w.op

/-- Decoding a word for a given NUM_BUTTONS, in the order of checks of R70. -/
def decodeFor (numButtons : Nat) (w : Word) : Except Reserved Instr :=
  match rowOf w with
  | none => .error .reservedOpcode
  | some r =>
    if w &&& r.mask = r.pattern then
      match (r.build w).brokenFor numButtons with
      | none => .ok (r.build w)
      | some why => .error why
    else .error .reservedFieldBits

/-- Decoding a word on this hardware. -/
def decode (w : Word) : Except Reserved Instr := decodeFor Config.numButtons w

/-! ### The encoder -/

/-- The word with OP, A and D (R65). -/
def Word.mk (op a : BitVec 4) (d : BitVec 8) : Word := op ++ a ++ d

/-- The word of an operation, from the patterns of R68. -/
def encode : Instr → Word
  | .nop => Word.mk 0x0 0 0
  | .debSample i lvl => Word.mk 0x1 i (lvl.setWidth 8)
  | .qdecStep e raw => Word.mk 0x2 (BitVec.ofNat 4 e.val) (raw.setWidth 8)
  | .tbTick => Word.mk 0x3 0 0
  | .tbEn b => Word.mk 0x4 0 ((BitVec.ofBool b).setWidth 8)
  | .edMin ent st => Word.mk 0x5 ((BitVec.ofBool ent.bit).setWidth 4) (st.setWidth 8)
  | .edHour ent st => Word.mk 0x6 ((BitVec.ofBool ent.bit).setWidth 4) (st.setWidth 8)
  | .edMer ent => Word.mk 0x7 ((BitVec.ofBool ent.bit).setWidth 4) 0
  | .alTen => Word.mk 0x8 0 0
  | .alSnooze => Word.mk 0x9 0 0
  | .alDismiss => Word.mk 0xA 0 0
  | .fmt mode => Word.mk 0xB 0 (mode.code.setWidth 8)
  | .muxStep mode => Word.mk 0xC 0 (mode.code.setWidth 8)

/-! ### Serialised words (20_memory.md R54) -/

/-- A word written as bytes: the high byte, bits 15:8, comes first. -/
def Word.toBytes (w : Word) : List Byte := [w.extractLsb' 8 8, w.extractLsb' 0 8]

/-- Reading one word back from bytes, with the rest; none where fewer than two bytes are left. -/
def wordOfBytes : List Byte → Option (Word × List Byte)
  | hi :: lo :: rest => some (hi ++ lo, rest)
  | _ => none

/-! ### The host's view of the table -/

/-- The word whose bits spec/opcode_table.json numbers 0 (least significant) to `nbits - 1`, every bit above
being 0 (log 18). -/
def tableWord (nbits w : Nat) : Word := BitVec.ofNat 16 (w % 2 ^ nbits)

/-- What the decoder reads from the instruction whose bits are `w`: an operation is one 16-bit word (R65, R75),
so an instruction with a bit above bit 15 is none. -/
def decodeTableWord (nbits w : Nat) : Option Instr :=
  if w % 2 ^ nbits < 2 ^ 16 then
    match decode (tableWord nbits w) with
    | .ok i => some i
    | .error _ => none
  else none

end Sys2Proof
end

