-- ==== Sys2Proof/Machine/State.lean ====
section
/-! DEFINITION. The state of the block (10_state.md R20 to R33) as plain data, with the model's own fields for the
input and result ports; the reasons a step can stop; the state after reset (70_reset_and_hazards.md R180). -/

namespace Sys2Proof.Machine

/-- The meridiem bit: 0 = AM, 1 = PM (00_scope.md R14). -/
inductive Meridiem where
  | am
  | pm
  deriving DecidableEq, Repr

/-- The four time fields that ClockTime and AlarmSetting have alike, in their storage widths (10_state.md R22,
R24). Their ranges, hours 1..12, minutes and seconds 0..59, are the invariant of 42_timebase.md R130 (log 14). -/
structure TimeOfDay where
  h : BitVec 4
  m : BitVec 6
  s : BitVec 6
  mer : Meridiem
  deriving DecidableEq, Repr

/-- SEQ_PH: the lit or the blanking interval of a cell (10_state.md R33). -/
inductive Phase where
  | dwell
  | blank
  deriving DecidableEq, Repr

/-- One event the environment presents to the block (log 1). -/
inductive Input where
  /-- An operation word on `op[15:0]` with `op_valid` = 1 (30_encoding.md R65). -/
  | word (w : Word)
  /-- The reset input `rst` asserted (70_reset_and_hazards.md R180, decision D37; log 20). -/
  | rst
  deriving DecidableEq, Repr

/-- The block has no fault outcome (00_scope.md R16, 60_exceptions.md R160), so there is no reason for one. Safe:
no step ends so, and none may (log 13). -/
inductive Fault where
  deriving DecidableEq, Repr

/-- Why a step is refused. -/
inductive Refusal where
  /-- Raised by an arm of `exec` for an instruction that has no meaning yet. No arm raises it now. Safe. -/
  | notModelled (mnemonic : String)
  /-- Raised by `step` for a reserved word, and by DEB.SAMPLE, ED.MIN and ED.HOUR on an operand the opcode map
  excludes (30_encoding.md R70, R74). Safe: what hardware does with such a word is in no source, and no claim about
  it can be proved (93_implementation_defined.md V5; log 11, log 12). -/
  | reserved (why : Reserved)
  /-- Raised by `step` where nothing is presented: op_valid = 0 performs nothing and is not a step of the model
  (30_encoding.md R65). It is no refusal of a word in the sense of R70. Safe: nothing is claimed of what does not
  happen (log 2). -/
  | nothingPresented
  deriving DecidableEq, Repr

/-- The state of the block with the parameters `P` (R8), which are this hardware's unless another argument is given:
`State` is this hardware's state. The last three fields are the model's, not the spec's. -/
structure State (P : Params := Config.params) where
  /-- CLK, ClockTime (R22). -/
  clk : TimeOfDay
  /-- ALM.H, ALM.M, ALM.S, ALM.MER: the time fields of AlarmSetting (R24). -/
  alm : TimeOfDay
  /-- ALM.EN (R25). -/
  almEn : Bool
  /-- ALM.RING (R26). -/
  almRing : Bool
  /-- TICK_EN (R27). -/
  tickEn : Bool
  /-- BLINK (R28). -/
  blink : Bool
  /-- COLON_ON (R29). -/
  colonOn : Bool
  /-- DEB[i], the debounce histories (R30). -/
  deb : Vector (BitVec P.debW) P.numButtons
  /-- QH[e], the encoder histories (R31). -/
  qh : Vector (BitVec 4) Config.numEncoders
  /-- CELLS[k], the cell latches (R32). -/
  cells : Vector Byte Config.numCells
  /-- SEQ_IDX (R33). -/
  seqIdx : Fin 5
  /-- SEQ_PH (R33). -/
  seqPh : Phase
  /-- SEQ_CNT (R33). -/
  seqCnt : Nat
  /-- What the environment presents from now on, earliest first (log 1). -/
  inputs : List Input
  /-- The value on `res[1:0]` in the step that led here; none after a reset, which performs no operation (log 3). -/
  res : Option (BitVec 2)
  /-- How many times `rst` has been asserted: which draws the next reset takes is read from it (log 6). -/
  resets : Nat
  deriving DecidableEq, Repr

/-- 12:00:00 AM (10_state.md R22, R24). -/
def TimeOfDay.twelveAm : TimeOfDay := ⟨12, 0, 0, .am⟩

/-- Every field at its reset value (70_reset_and_hazards.md R180, 10_state.md R38), the histories at the draws of
reset number `k`, with `inputs` presented afterwards. -/
def State.powerUp {P : Params} (k : Nat) (inputs : List Input) : State P where
  clk := .twelveAm
  alm := .twelveAm
  almEn := false
  almRing := false
  tickEn := true
  blink := false
  colonOn := false
  deb := Vector.ofFn fun i => P.debReset k i.val
  qh := Vector.ofFn fun e => P.qdecReset k e.val
  cells := #v[0x00, 0x00, 0x00, 0x00, 0x00]
  seqIdx := 0
  seqPh := .dwell
  seqCnt := 0
  inputs := inputs
  res := none
  resets := k

/-- The machine right after power-up: the block waits for its first operation word (20_memory.md R51). -/
def State.reset : State := .powerUp 0 []

/-- What `step` finds at the input ports. -/
inductive Fetched where
  /-- Nothing is presented: `op_valid` = 0 (30_encoding.md R65). -/
  | idle
  /-- `rst` is asserted, with what is presented after it. -/
  | rst (rest : List Input)
  /-- A reserved word (R70). -/
  | reserved (why : Reserved)
  /-- A legal word, with what is presented after it. -/
  | op (i : Instr) (rest : List Input)
  deriving DecidableEq, Repr

end Sys2Proof.Machine
end

