-- ==== Sys2Proof/Machine/Operands.lean ====
section
/-! DEFINITION. The operands that stand for something else than their own bits (30_encoding.md R66): the step code,
the entity selector, the mode code; and the codes of the result port (R67). -/

namespace Sys2Proof.Machine

/-- `step_val(st)` (00_scope.md R13): 0b01 is +1, 0b11 is -1, 0b00 is 0; 0b10 is reserved. -/
def stepVal (st : BitVec 2) : Option Int :=
  if st = 0b00#2 then some 0
  else if st = 0b01#2 then some 1
  else if st = 0b11#2 then some (-1)
  else none

/-- STEP_CODE of a decoder step, 2-bit two's complement (00_scope.md R13). -/
def stepCode (step : Int) : BitVec 2 := BitVec.ofInt 2 step

/-- `{0, pressed}` on the result port (30_encoding.md R67). -/
def pressedCode (pressed : Bool) : BitVec 2 := 0#1 ++ BitVec.ofBool pressed

/-- The time fields an entity selector names (30_encoding.md R66). -/
def State.time {P : Params} (s : State P) : Entity → TimeOfDay
  | .clk => s.clk
  | .alm => s.alm

/-- Writing the time fields an entity selector names. -/
def State.setTime {P : Params} (s : State P) (ent : Entity) (t : TimeOfDay) : State P :=
  match ent with
  | .clk => { s with clk := t }
  | .alm => { s with alm := t }

/-- The entity a format pass shows: AlarmSetting in SET_ALARM, ClockTime in every other mode (43_display.md R142,
R154). -/
def shownEntity : Mode → Entity
  | .normal => .clk
  | .setClock => .clk
  | .setAlarm => .alm
  | .toggleFormat => .clk

end Sys2Proof.Machine
end

