-- ==== Sys2Proof/Machine/Flags.lean ====
section
/-! DEFINITION. Every flag the operations compute: the meridiem, the alarm comparison (ALM.RING), the press match
(the `pressed` flag), and the colon handshake (BLINK, COLON_ON). -/

namespace Sys2Proof.Machine

/-- `!MER` (42_timebase.md R110, R118). -/
def Meridiem.flip : Meridiem → Meridiem
  | .am => .pm
  | .pm => .am

/-- ALM.RING after an accepted tick that leaves ClockTime at `clk` (42_timebase.md R110, R112): set on an exact match
of all four components while enabled, kept while already ringing. -/
def ringAfterTick (en ring : Bool) (clk alm : TimeOfDay) : Bool :=
  ring || (en && decide (clk = alm))

/-- `pressed`: the history, after the shift, equals DEB_MATCH (40_debounce.md R91). -/
def pressed (P : Params) (hist : BitVec P.debW) : Bool := hist == P.debMatch

/-- COLON_ON after a format pass: inverted when the pass consumes BLINK = 1 (43_display.md R143). -/
def colonAfterPass (colonOn blink : Bool) : Bool := colonOn ^^ blink

end Sys2Proof.Machine
end

