-- ==== Sys2Proof/Machine/Ops.lean ====
section
/-! DEFINITION. The named operations over the state that the meanings share: the result port, the carry chain and the
time arithmetic, the two histories, the format pass, the sequencer, reset, and reading the input ports. The block
takes no exception and returns from none (60_exceptions.md R160, R165, R166), so no such operation stands here. -/

namespace Sys2Proof.Machine

/-! ### The result port -/

/-- `out(res, r)`: drives the result port in this step (00_scope.md R12, 30_encoding.md R67). -/
def State.drive {P : Params} (s : State P) (r : BitVec 2) : State P := { s with res := some r }

/-- What `res[1:0]` carries in a step with this outcome: a refused word drives 0b00 (30_encoding.md R74; log 24). Where
there is no step (R65), nothing is driven. -/
def resPort {P : Params} : Host.Outcome (State P) Fault Refusal → Option (BitVec 2)
  | .next t => t.res
  | .refused (.reserved _) => some 0b00
  | .refused _ => none
  | .fault _ => none

/-! ### Time arithmetic (42_timebase.md) -/

/-- The first line of the carry chain: seconds 60 carry into the minutes (R110). -/
def TimeOfDay.carrySeconds (t : TimeOfDay) : TimeOfDay :=
  if t.s = 60 then { t with s := 0, m := t.m + 1 } else t

/-- The second line: minutes 60 carry into the hours (R110). -/
def TimeOfDay.carryMinutes (t : TimeOfDay) : TimeOfDay :=
  if t.m = 60 then { t with m := 0, h := t.h + 1 } else t

/-- The third line: hours 13 become 1 and the meridiem flips (R110). -/
def TimeOfDay.carryHours (t : TimeOfDay) : TimeOfDay :=
  if t.h = 13 then { t with h := 1, mer := t.mer.flip } else t

/-- One accepted tick: a second more, then the carry chain, each line seeing the line before (R110). -/
def TimeOfDay.tick (t : TimeOfDay) : TimeOfDay :=
  ({ t with s := t.s + 1 } : TimeOfDay).carrySeconds.carryMinutes.carryHours

/-- The seconds of a snooze: `offset` more, less 60 with a minute more where that reaches 60 (R120). -/
def TimeOfDay.addSeconds (t : TimeOfDay) (offset : Nat) : TimeOfDay :=
  if 60 ≤ t.s.toNat + offset then
    { t with s := BitVec.ofNat 6 (t.s.toNat + offset - 60), m := t.m + 1 }
  else { t with s := BitVec.ofNat 6 (t.s.toNat + offset) }

/-- A snooze's deferred alarm time: the seconds, then the rest of the carry chain (R120). -/
def TimeOfDay.defer (t : TimeOfDay) (offset : Nat) : TimeOfDay :=
  (t.addSeconds offset).carryMinutes.carryHours

/-- ED.MIN's `(M + step) mod 60`, with no carry into the hours (R116). -/
def TimeOfDay.editMinutes (t : TimeOfDay) (step : Int) : TimeOfDay :=
  { t with m := BitVec.ofInt 6 (((t.m.toNat : Int) + step) % 60) }

/-- ED.HOUR's `((H - 1 + step) mod 12) + 1`, with the meridiem kept (R117). -/
def TimeOfDay.editHours (t : TimeOfDay) (step : Int) : TimeOfDay :=
  { t with h := BitVec.ofInt 4 (((t.h.toNat : Int) - 1 + step) % 12 + 1) }

/-- ED.MER's toggle (R118). -/
def TimeOfDay.editMeridiem (t : TimeOfDay) : TimeOfDay := { t with mer := t.mer.flip }

/-! ### The input histories -/

/-- A debounce history after one sample: shifted left with the level in bit 0, the pad bits forced to 1
(40_debounce.md R91). -/
def debounceShift (P : Params) (hist : BitVec P.debW) (lvl : BitVec 1) : BitVec P.debW :=
  ((hist <<< 1 ||| lvl.setWidth P.debW) &&& ones P.debW (P.debW - 1) 0) ||| P.debPad

/-- Writing DEB[i]. -/
def State.setDeb {P : Params} (s : State P) (i : Fin P.numButtons) (hist : BitVec P.debW) : State P :=
  { s with deb := s.deb.set i.val hist i.isLt }

/-- An encoder history after one sample: `{QH[e][1:0], raw}` (41_quadrature.md R100, R102). -/
def quadratureShift (hist : BitVec 4) (raw : BitVec 2) : BitVec 4 :=
  (hist <<< 2 ||| raw.setWidth 4) &&& 0xF

/-- Writing QH[e]. -/
def State.setQh {P : Params} (s : State P) (e : Fin Config.numEncoders) (hist : BitVec 4) : State P :=
  { s with qh := s.qh.set e.val hist e.isLt }

/-! ### The display (43_display.md) -/

/-- The indicator bit, bit 7 of a digit cell (R140). -/
def indicator (on : Bool) : Byte := if on then 0x80 else 0x00

/-- The five cells of a format pass that shows `t`, with ALM.EN `en` and the colon, of code `colonGlyph`, lit or dark
(R141, R143). -/
def cellsOf (colonGlyph : Byte) (t : TimeOfDay) (en colon : Bool) : Vector Byte Config.numCells :=
  #v[glyph (t.m.toNat % 10) ||| indicator (t.mer == .pm),
     glyph (t.m.toNat / 10),
     if colon then colonGlyph else 0x00,
     glyph (t.h.toNat % 10),
     glyph (t.h.toNat / 10) ||| indicator en]

/-- FORMAT(mode): one format pass (R143). -/
def State.formatPass {P : Params} (s : State P) (mode : Mode) : State P :=
  { s with
    colonOn := colonAfterPass s.colonOn s.blink
    blink := false
    cells := cellsOf P.colonGlyph (s.time (shownEntity mode)) s.almEn (colonAfterPass s.colonOn s.blink) }

/-- ADVANCE: the next cell, and a format pass on entering cell 0 (R148). -/
def State.advance {P : Params} (s : State P) (mode : Mode) : State P :=
  if s.seqIdx = 4 then ({ s with seqIdx := 0 } : State P).formatPass mode
  else { s with seqIdx := s.seqIdx + 1 }

/-- MUX.STEP for given DWELL_LEN and BLANK_LEN (R148). -/
def State.sequencerStep {P : Params} (s : State P) (dwellLen blankLen : Nat) (mode : Mode) : State P :=
  match s.seqPh with
  | .dwell =>
    if s.seqCnt + 1 < dwellLen then { s with seqCnt := s.seqCnt + 1 }
    else if 0 < blankLen then { s with seqCnt := 0, seqPh := .blank }
    else ({ s with seqCnt := 0 } : State P).advance mode
  | .blank =>
    if s.seqCnt + 1 < blankLen then { s with seqCnt := s.seqCnt + 1 }
    else ({ s with seqCnt := 0, seqPh := .dwell } : State P).advance mode

/-! ### Reset and the input ports -/

/-- `rst` asserted: every field to its reset value, the histories to fresh draws, and the environment's further
inputs as they are (70_reset_and_hazards.md R180, R181; log 6, log 20). -/
def State.takeReset {P : Params} (s : State P) (rest : List Input) : State P := .powerUp (s.resets + 1) rest

/-- The inputs that are left once the head has been taken. -/
def State.withInputs {P : Params} (s : State P) (rest : List Input) : State P := { s with inputs := rest }

/-- What stands at the input ports, the word decoded (30_encoding.md R65, R70). -/
def State.fetch {P : Params} (s : State P) : Fetched :=
  match s.inputs with
  | [] => .idle
  | .rst :: rest => .rst rest
  | .word w :: rest =>
    match decodeFor P.numButtons w with
    | .ok i => .op i rest
    | .error why => .reserved why

/-- The same state with one more word presented before everything else (log 1). -/
def State.present {P : Params} (s : State P) (w : Word) : State P := { s with inputs := .word w :: s.inputs }

/-- One step of the block (00_scope.md R15, R16), `perform` giving the operations their effect: exactly one operation
word is performed, on the state from whose inputs it has been taken, or a reset is. A reserved word is refused
(30_encoding.md R70, R74). With nothing presented there is no step (R65; log 2). -/
def State.stepWith {P : Params} (s : State P) (perform : Instr → State P → Host.Outcome (State P) Fault Refusal) :
    Host.Outcome (State P) Fault Refusal :=
  match s.fetch with
  | .idle => .refused .nothingPresented
  | .rst rest => .next (s.takeReset rest)
  | .reserved why => .refused (.reserved why)
  | .op i rest => perform i (s.withInputs rest)

end Sys2Proof.Machine
end

