-- ==== Sys2Proof/Machine/Alarm.lean ====
section
/-! DEFINITION. The alarm control (42_timebase.md section 4). -/

namespace Sys2Proof.Machine

/-- AL.TEN (42_timebase.md R119): ALM.RING is kept. -/
def execAlTen {P : Params} (s : State P) : Host.Outcome (State P) Fault Refusal :=
  .next (({ s with almEn := !s.almEn } : State P).drive 0b00)

/-- AL.SNOOZE (42_timebase.md R120): nothing changes while not ringing (R123). -/
def execAlSnooze {P : Params} (s : State P) : Host.Outcome (State P) Fault Refusal :=
  .next ((if s.almRing then { s with almRing := false, alm := s.alm.defer P.snoozeOffset } else s).drive 0b00)

/-- AL.DISMISS (42_timebase.md R122): nothing changes while not ringing (R123). -/
def execAlDismiss {P : Params} (s : State P) : Host.Outcome (State P) Fault Refusal :=
  .next ((if s.almRing then { s with almRing := false, almEn := false } else s).drive 0b00)

end Sys2Proof.Machine
end

