-- ==== Sys2Proof/Machine/Debounce.lean ====
section
/-! DEFINITION. The Debounce Engine's operation (40_debounce.md). -/

namespace Sys2Proof.Machine

/-- DEB.SAMPLE i, lvl (40_debounce.md R91). An index of NUM_BUTTONS or more is refused (30_encoding.md R70, R72). -/
def execDebSample {P : Params} (i : BitVec 4) (lvl : BitVec 1) (s : State P) : Host.Outcome (State P) Fault Refusal :=
  if h : i.toNat < P.numButtons then
    let hist := debounceShift P (s.deb.get ⟨i.toNat, h⟩) lvl
    .next ((s.setDeb ⟨i.toNat, h⟩ hist).drive (pressedCode (pressed P hist)))
  else .refused (.reserved .buttonIndexOutOfRange)

end Sys2Proof.Machine
end

