-- ==== Sys2Proof/Machine/Display.lean ====
section
/-! DEFINITION. The display operations (43_display.md): the format pass and the multiplexer sequencer. -/

namespace Sys2Proof.Machine

/-- FMT mode (43_display.md R143). -/
def execFmt {P : Params} (mode : Mode) (s : State P) : Host.Outcome (State P) Fault Refusal :=
  .next ((s.formatPass mode).drive 0b00)

/-- MUX.STEP mode (43_display.md R148), with the lengths DWELL_LEN and BLANK_LEN. -/
def execMuxStep {P : Params} (mode : Mode) (s : State P) : Host.Outcome (State P) Fault Refusal :=
  .next ((s.sequencerStep P.dwellLen P.blankLen mode).drive 0b00)

end Sys2Proof.Machine
end

