-- ==== Sys2Proof/Machine/Edit.lean ====
section
/-! DEFINITION. The field edits (42_timebase.md section 3). None runs the alarm comparison (R126). -/

namespace Sys2Proof.Machine

/-- ED.MIN ent, st (42_timebase.md R116). The step code 0b10 is refused (30_encoding.md R70, R72). -/
def execEdMin {P : Params} (ent : Entity) (st : BitVec 2) (s : State P) : Host.Outcome (State P) Fault Refusal :=
  match stepVal st with
  | some d => .next ((s.setTime ent ((s.time ent).editMinutes d)).drive 0b00)
  | none => .refused (.reserved .reservedStepCode)

/-- ED.HOUR ent, st (42_timebase.md R117). The step code 0b10 is refused (30_encoding.md R70, R72). -/
def execEdHour {P : Params} (ent : Entity) (st : BitVec 2) (s : State P) : Host.Outcome (State P) Fault Refusal :=
  match stepVal st with
  | some d => .next ((s.setTime ent ((s.time ent).editHours d)).drive 0b00)
  | none => .refused (.reserved .reservedStepCode)

/-- ED.MER ent (42_timebase.md R118). -/
def execEdMer {P : Params} (ent : Entity) (s : State P) : Host.Outcome (State P) Fault Refusal :=
  .next ((s.setTime ent (s.time ent).editMeridiem).drive 0b00)

end Sys2Proof.Machine
end

