-- ==== Sys2Proof/Machine/Quadrature.lean ====
section
/-! DEFINITION. The Quadrature Decoder's operation (41_quadrature.md). -/

namespace Sys2Proof.Machine

/-- QDEC.STEP e, raw (41_quadrature.md R102). -/
def execQdecStep {P : Params} (e : Fin 2) (raw : BitVec 2) (s : State P) : Host.Outcome (State P) Fault Refusal :=
  let hist := quadratureShift (s.qh.get e) raw
  .next ((s.setQh e hist).drive (stepCode (P.qdecTable hist)))

end Sys2Proof.Machine
end

