-- ==== Sys2Proof/Machine/TimeBase.lean ====
section
/-! DEFINITION. The Time Base: the tick, its enable, and NOP (42_timebase.md sections 1, 2 and 5). -/

namespace Sys2Proof.Machine

/-- NOP (42_timebase.md R127). -/
def execNop {P : Params} (s : State P) : Host.Outcome (State P) Fault Refusal := .next (s.drive 0b00)

/-- The state after an accepted tick: ClockTime, BLINK and ALM.RING (42_timebase.md R110, R111, R112). -/
def State.acceptTick {P : Params} (s : State P) : State P :=
  { s with
    clk := s.clk.tick
    blink := true
    almRing := ringAfterTick s.almEn s.almRing s.clk.tick s.alm }

/-- TB.TICK (42_timebase.md R110): accepted while TICK_EN = 1, else discarded (R113). -/
def execTbTick {P : Params} (s : State P) : Host.Outcome (State P) Fault Refusal :=
  .next ((if s.tickEn then s.acceptTick else s).drive 0b00)

/-- TB.EN b (42_timebase.md R114). -/
def execTbEn {P : Params} (b : Bool) (s : State P) : Host.Outcome (State P) Fault Refusal :=
  .next (({ s with tickEn := b } : State P).drive 0b00)

end Sys2Proof.Machine
end

