-- ==== Sys2Proof/Machine/Dispatch.lean ====
section
/-! DEFINITION. The dispatch: one arm per operation of the opcode map (30_encoding.md R68), each one call of its
meaning. -/

namespace Sys2Proof.Machine

def exec (i : Instr) (s : State) : Host.Outcome State Fault Refusal :=
  match i with
  | .nop => Sys2Proof.Machine.execNop s
  | .debSample b lvl => Sys2Proof.Machine.execDebSample b lvl s
  | .qdecStep e raw => Sys2Proof.Machine.execQdecStep e raw s
  | .tbTick => Sys2Proof.Machine.execTbTick s
  | .tbEn b => Sys2Proof.Machine.execTbEn b s
  | .edMin ent st => Sys2Proof.Machine.execEdMin ent st s
  | .edHour ent st => Sys2Proof.Machine.execEdHour ent st s
  | .edMer ent => Sys2Proof.Machine.execEdMer ent s
  | .alTen => Sys2Proof.Machine.execAlTen s
  | .alSnooze => Sys2Proof.Machine.execAlSnooze s
  | .alDismiss => Sys2Proof.Machine.execAlDismiss s
  | .fmt mode => Sys2Proof.Machine.execFmt mode s
  | .muxStep mode => Sys2Proof.Machine.execMuxStep mode s

end Sys2Proof.Machine
end

