-- ==== Sys2Proof/Machine/Step.lean ====
section
/-! DEFINITION. One step of this hardware (00_scope.md R15, R16), and how the opcode table's words come to be presented. -/

namespace Sys2Proof.Machine

/-- One step: the next presented word performed as `exec` says, or a reset; a reserved word is refused, and with nothing
presented there is no step. -/
def step (s : State) : Host.Outcome State Fault Refusal := s.stepWith exec

/-- `s` with the word of the opcode table's numbering presented next (log 1, log 18). -/
def State.withFetchWord (s : State) (nbits w : Nat) : State := s.present (tableWord nbits w)

end Sys2Proof.Machine
end

