-- ==== Sys2Proof/Machine/Assembly.lean ====
section
/-! DEFINITION. The written form of operations: the mnemonic syntax (30_encoding.md R76), the pseudo-operations and
their expansions (R77), and the hex spelling of a word (R78). -/

namespace Sys2Proof.Machine

/-! ### Operand spellings (R76) -/

/-- `CLK` or `ALM`. -/
def entityText : Entity → String
  | .clk => "CLK"
  | .alm => "ALM"

/-- `+1`, `-1` or `0`; the reserved code has no spelling in R76 and is written as its bits. -/
def stepText (st : BitVec 2) : String :=
  if st = 0b00#2 then "0" else if st = 0b01#2 then "+1" else if st = 0b11#2 then "-1" else "0b10"

/-- The name of a mode. -/
def modeText : Mode → String
  | .normal => "NORMAL"
  | .setClock => "SET_CLOCK"
  | .setAlarm => "SET_ALARM"
  | .toggleFormat => "TOGGLE_FORMAT"

/-- `0` or `1`. -/
def bitText (b : Bool) : String := if b then "1" else "0"

/-- `0b00` to `0b11`. -/
def rawText (raw : BitVec 2) : String := "0b" ++ bitText (raw.getLsbD 1) ++ bitText (raw.getLsbD 0)

/-- An operation as R76 writes it. -/
def asm : Instr → String
  | .nop => "NOP"
  | .debSample i lvl => "DEB.SAMPLE " ++ Nat.repr i.toNat ++ ", " ++ bitText (lvl.getLsbD 0)
  | .qdecStep e raw => "QDEC.STEP " ++ bitText (e == 1) ++ ", " ++ rawText raw
  | .tbTick => "TB.TICK"
  | .tbEn b => "TB.EN " ++ bitText b
  | .edMin ent st => "ED.MIN " ++ entityText ent ++ ", " ++ stepText st
  | .edHour ent st => "ED.HOUR " ++ entityText ent ++ ", " ++ stepText st
  | .edMer ent => "ED.MER " ++ entityText ent
  | .alTen => "AL.TEN"
  | .alSnooze => "AL.SNOOZE"
  | .alDismiss => "AL.DISMISS"
  | .fmt mode => "FMT " ++ modeText mode
  | .muxStep mode => "MUX.STEP " ++ modeText mode

/-! ### Pseudo-operations (R77) -/

/-- The text abbreviations of R77, for the block with the parameters `P`. -/
inductive Pseudo (P : Params := Config.params) where
  | suspend
  | rearm
  | incMin (ent : Entity)
  | decMin (ent : Entity)
  | incHour (ent : Entity)
  | decHour (ent : Entity)
  /-- One level a button, then one sample an encoder. -/
  | sampleCycle (levels : Vector (BitVec 1) P.numButtons) (r0 r1 : BitVec 2)
  /-- One render cycle. -/
  | render (mode : Mode)
  | ticks (n : Nat)
  deriving DecidableEq, Repr

/-- The operations a pseudo-operation stands for, in order. It is not atomic: another source's words may come
between them (R77, 20_memory.md R58). -/
def expand {P : Params} : Pseudo P → List Instr
  | .suspend => [.tbEn false]
  | .rearm => [.tbEn true]
  | .incMin ent => [.edMin ent 0b01]
  | .decMin ent => [.edMin ent 0b11]
  | .incHour ent => [.edHour ent 0b01]
  | .decHour ent => [.edHour ent 0b11]
  | .sampleCycle levels r0 r1 =>
    (List.finRange P.numButtons).map (fun i => .debSample (BitVec.ofNat 4 i.val) (levels.get i))
      ++ [.qdecStep 0 r0, .qdecStep 1 r1]
  | .render mode => List.replicate (5 * (P.dwellLen + P.blankLen)) (.muxStep mode)
  | .ticks n => List.replicate n .tbTick

/-! ### Reading a line (R76, R77; log 22) -/

/-- A space or a tab. -/
def isBlank (c : Char) : Bool := c == ' ' || c == '\t'

/-- A text without the blanks around it. -/
def trimBlanks (cs : List Char) : List Char :=
  ((cs.dropWhile isBlank).reverse.dropWhile isBlank).reverse

/-- The mnemonic and the comma-separated operands of a line, less its comment. -/
def lineFields (line : String) : List String :=
  let cs := trimBlanks (line.toList.takeWhile (· != ';'))
  let operands := trimBlanks (cs.dropWhile (!isBlank ·))
  String.ofList (cs.takeWhile (!isBlank ·)) ::
    (if operands.isEmpty then [] else (operands.splitOnP (· == ',')).map (String.ofList ∘ trimBlanks))

/-- A decimal number. -/
def readNat (t : String) : Option Nat :=
  if t.toList.isEmpty then none
  else t.toList.foldl (fun n c => n.bind fun k => if c.isDigit then some (10 * k + (c.toNat - '0'.toNat)) else none)
    (some 0)

/-- A button index, 0..NUM_BUTTONS-1. -/
def readButton (numButtons : Nat) (t : String) : Option (BitVec 4) :=
  (readNat t).bind fun n => if n < numButtons then some (BitVec.ofNat 4 n) else none

/-- `0` or `1`. -/
def readBit (t : String) : Option Bool := if t = "0" then some false else if t = "1" then some true else none

/-- `CLK` or `ALM`. -/
def readEntity (t : String) : Option Entity :=
  if t = "CLK" then some .clk else if t = "ALM" then some .alm else none

/-- `+1`, `-1` or `0`. -/
def readStep (t : String) : Option (BitVec 2) :=
  if t = "0" then some 0b00 else if t = "+1" then some 0b01 else if t = "-1" then some 0b11 else none

/-- `0b00` to `0b11`. -/
def readRaw (t : String) : Option (BitVec 2) :=
  if t = "0b00" then some 0 else if t = "0b01" then some 1 else if t = "0b10" then some 2
  else if t = "0b11" then some 3 else none

/-- A mode by its name or by its code 0..3. -/
def readMode (t : String) : Option Mode :=
  if t = "NORMAL" ∨ t = "0" then some .normal
  else if t = "SET_CLOCK" ∨ t = "1" then some .setClock
  else if t = "SET_ALARM" ∨ t = "2" then some .setAlarm
  else if t = "TOGGLE_FORMAT" ∨ t = "3" then some .toggleFormat
  else none

/-- The levels of a SAMPLE.CYCLE, one a button. -/
def readLevels (numButtons : Nat) (ts : List String) : Option (Vector (BitVec 1) numButtons) :=
  (ts.mapM readBit).bind fun bs =>
    if h : bs.length = numButtons then
      some (Vector.ofFn fun i => BitVec.ofBool (bs.get (i.cast h.symm)))
    else none

/-- The operations of a line, given as its mnemonic and its operands; none where R76 and R77 have no such line. -/
def readFields (P : Params) : List String → Option (List Instr)
  | ["NOP"] => some [.nop]
  | ["DEB.SAMPLE", i, l] =>
    (readButton P.numButtons i).bind fun i => (readBit l).map fun l => [.debSample i (BitVec.ofBool l)]
  | ["QDEC.STEP", e, r] => (readBit e).bind fun e => (readRaw r).map fun r => [.qdecStep (encoderOfBit e) r]
  | ["TB.TICK"] => some [.tbTick]
  | ["TB.EN", b] => (readBit b).map fun b => [.tbEn b]
  | ["ED.MIN", ent, st] => (readEntity ent).bind fun ent => (readStep st).map fun st => [.edMin ent st]
  | ["ED.HOUR", ent, st] => (readEntity ent).bind fun ent => (readStep st).map fun st => [.edHour ent st]
  | ["ED.MER", ent] => (readEntity ent).map fun ent => [.edMer ent]
  | ["AL.TEN"] => some [.alTen]
  | ["AL.SNOOZE"] => some [.alSnooze]
  | ["AL.DISMISS"] => some [.alDismiss]
  | ["FMT", mode] => (readMode mode).map fun mode => [.fmt mode]
  | ["MUX.STEP", mode] => (readMode mode).map fun mode => [.muxStep mode]
  | ["SUSPEND"] => some (expand (P := P) .suspend)
  | ["REARM"] => some (expand (P := P) .rearm)
  | ["INC.MIN", ent] => (readEntity ent).map fun ent => expand (P := P) (.incMin ent)
  | ["DEC.MIN", ent] => (readEntity ent).map fun ent => expand (P := P) (.decMin ent)
  | ["INC.HOUR", ent] => (readEntity ent).map fun ent => expand (P := P) (.incHour ent)
  | ["DEC.HOUR", ent] => (readEntity ent).map fun ent => expand (P := P) (.decHour ent)
  | ["RENDER", mode] => (readMode mode).map fun mode => expand (P := P) (.render mode)
  | ["TICKS", n] => (readNat n).map fun n => expand (P := P) (.ticks n)
  | "SAMPLE.CYCLE" :: operands =>
    match operands.drop P.numButtons with
    | [r0, r1] =>
      (readLevels P.numButtons (operands.take P.numButtons)).bind fun ls =>
        (readRaw r0).bind fun r0 => (readRaw r1).map fun r1 => expand (P := P) (.sampleCycle ls r0 r1)
    | _ => none
  | _ => none

/-- The operations a line of assembler text stands for (R76, R77). -/
def assembleLine (line : String) (P : Params := Config.params) : Option (List Instr) := readFields P (lineFields line)

/-! ### Hex spelling (R78) -/

/-- One hex digit, in capitals. -/
def hexDigit (d : BitVec 4) : Char := (d.toNat.digitChar).toUpper

/-- A word as `0x` and four hex digits (R78). -/
def hexText (w : Word) : String :=
  "0x" ++ String.ofList [hexDigit (w.extractLsb' 12 4), hexDigit (w.extractLsb' 8 4),
    hexDigit (w.extractLsb' 4 4), hexDigit (w.extractLsb' 0 4)]

end Sys2Proof.Machine
end

