-- ==== Sys2Proof/Machine/Outputs.lean ====
section
/-! DEFINITION. The continuous output ports, each a function of the state (10_state.md R34, 43_display.md R151, R152,
R155). The result port of a step is `resPort` of Machine/Ops.lean. -/

namespace Sys2Proof.Machine

/-- `ringing` = ALM.RING (R34): it drives the tone, which is outside the block (00_scope.md R6 (f)). -/
def State.portRinging {P : Params} (s : State P) : Bool := s.almRing

/-- `alarm_en` = ALM.EN (R34). -/
def State.portAlarmEn {P : Params} (s : State P) : Bool := s.almEn

/-- `tick_en` = TICK_EN (R34). -/
def State.portTickEn {P : Params} (s : State P) : Bool := s.tickEn

/-- `sel_out[2:0]` = SEQ_IDX, held during blanking (R151). -/
def State.selOut {P : Params} (s : State P) : BitVec 3 := BitVec.ofNat 3 s.seqIdx.val

/-- The logical segment value: the strobed cell while lit, dark while blanking (R152). -/
def State.seg {P : Params} (s : State P) : Byte :=
  match s.seqPh with
  | .dwell => s.cells.get s.seqIdx
  | .blank => 0x00

/-- The segment pins for a given polarity (R152). -/
def segPins (activeLow : Bool) (seg : Byte) : Byte := if activeLow then ~~~seg else seg

/-- `seg_out[7:0]`, with the polarity SEG_ACTIVE_LOW (R152). -/
def State.segOut {P : Params} (s : State P) : Byte := segPins P.segActiveLow s.seg

end Sys2Proof.Machine
end

