-- ==== Sys2Proof/Machine/Parametric.lean ====
section
/-! DEFINITION. The whole block for any parameters (00_scope.md R8): the same meanings, with the parameters as the
argument. `Sys2Proof.core` is the block at `Config.params` (Laws/Parametric.lean). -/

namespace Sys2Proof.Machine

/-- The effect of an operation on the block with the parameters `P`. -/
def perform {P : Params} (i : Instr) (s : State P) : Host.Outcome (State P) Fault Refusal :=
  match i with
  | .nop => execNop s
  | .debSample b lvl => execDebSample b lvl s
  | .qdecStep e raw => execQdecStep e raw s
  | .tbTick => execTbTick s
  | .tbEn b => execTbEn b s
  | .edMin ent st => execEdMin ent st s
  | .edHour ent st => execEdHour ent st s
  | .edMer ent => execEdMer ent s
  | .alTen => execAlTen s
  | .alSnooze => execAlSnooze s
  | .alDismiss => execAlDismiss s
  | .fmt mode => execFmt mode s
  | .muxStep mode => execMuxStep mode s

/-- One step of the block with the parameters `P`. -/
def stepOf {P : Params} (s : State P) : Host.Outcome (State P) Fault Refusal := s.stepWith perform

/-- The block with the parameters `P` behind the host's interface. -/
def coreOf (P : Params) : Host.Core where
  State := State P
  Fault := Fault
  Refusal := Refusal
  step := stepOf
  reset := .powerUp 0 []

end Sys2Proof.Machine
end

