-- ==== Sys2Proof/Machine/Sources.lean ====
section
/-! DEFINITION. Sequences of operations (20_memory.md R57), the event sources (60_exceptions.md R163) and the
interleavings of their streams (20_memory.md R58). -/

namespace Sys2Proof.Machine

/-- Performing operations in order, each on the state the one before left; it ends at the first refusal
(20_memory.md R57, 30_encoding.md R74). -/
def execAll : List Instr → State → Host.Outcome State Fault Refusal
  | [], s => .next s
  | i :: is, s =>
    match exec i s with
    | .next t => execAll is t
    | .fault r => .fault r
    | .refused r => .refused r

/-- The event sources of R163. -/
inductive Source where
  /-- The 1 Hz tick. -/
  | tick
  /-- The input-sampling cycle. -/
  | sampling
  /-- The mode state machine, outside the block. -/
  | modeMachine
  /-- The render sequencer strobe. -/
  | render
  deriving DecidableEq, Repr

/-- Which operations a source delivers (60_exceptions.md R163). No source is named for NOP. -/
def Source.delivers : Source → Instr → Bool
  | .tick, .tbTick => true
  | .sampling, .debSample _ _ => true
  | .sampling, .qdecStep _ _ => true
  | .modeMachine, .edMin _ _ => true
  | .modeMachine, .edHour _ _ => true
  | .modeMachine, .edMer _ => true
  | .modeMachine, .alTen => true
  | .modeMachine, .alSnooze => true
  | .modeMachine, .alDismiss => true
  | .modeMachine, .tbEn _ => true
  | .render, .muxStep _ => true
  | .render, .fmt _ => true
  | _, _ => false

/-- `Interleaves streams out`: `out` takes the heads of the streams one by one in some order that keeps each stream's
own order, until all are used up (20_memory.md R58). -/
inductive Interleaves {α : Type} : List (List α) → List α → Prop
  /-- Every stream is used up. -/
  | done (streams : List (List α)) (h : ∀ q ∈ streams, q = []) : Interleaves streams []
  /-- Some stream's head comes next. -/
  | take (before after : List (List α)) (x : α) (xs out : List α)
      (h : Interleaves (before ++ xs :: after) out) : Interleaves (before ++ (x :: xs) :: after) (x :: out)

end Sys2Proof.Machine
end

