-- ==== Sys2Proof/Safety.lean ====
section
/-! DEFINITION. What counts as a good state and a safe run: the range invariant of the time fields (42_timebase.md
R130), the range of the sequencer (10_state.md R33), cells that come from one format pass (20_memory.md R61), the
place of a time in the 86 400-tick cycle (42_timebase.md R129), legal words, and the rates that the environment must
meet (00_scope.md R8). -/

namespace Sys2Proof.Machine

/-- Every time field in its range: hours 1..12, minutes and seconds 0..59 (10_state.md R22, R24). -/
def TimeOfDay.InRange (t : TimeOfDay) : Prop :=
  1 ≤ t.h.toNat ∧ t.h.toNat ≤ 12 ∧ t.m.toNat ≤ 59 ∧ t.s.toNat ≤ 59

/-- The range invariant of R130, for ClockTime and AlarmSetting. -/
def State.TimesInRange {P : Params} (s : State P) : Prop := s.clk.InRange ∧ s.alm.InRange

/-- The sequencer in its range (10_state.md R33): SEQ_CNT below the length of the current phase. In a blanking phase
this says that BLANK_LEN > 0. -/
def State.SequencerInRange {P : Params} (s : State P) : Prop :=
  match s.seqPh with
  | .dwell => s.seqCnt < P.dwellLen
  | .blank => s.seqCnt < P.blankLen

/-- The cells are the dark cells of reset, or all five are those of one format pass over one time in range
(20_memory.md R61, 43_display.md R153). -/
def State.CellsFromOnePass {P : Params} (s : State P) : Prop :=
  s.cells = #v[0x00, 0x00, 0x00, 0x00, 0x00] ∨
    ∃ (t : TimeOfDay) (en colon : Bool), t.InRange ∧ s.cells = cellsOf P.colonGlyph t en colon

/-- A good state: what every reachable state satisfies. -/
structure State.Inv {P : Params} (s : State P) : Prop where
  times : s.TimesInRange
  sequencer : s.SequencerInRange
  cells : s.CellsFromOnePass

/-- The place of a time in the cycle of R129, from 01:00:00 PM at 0 to 12:59:59 AM at 86 399: the hours run 1, ...,
12 under PM and then 1, ..., 12 under AM, since the meridiem flips on entering 1. -/
def TimeOfDay.place (t : TimeOfDay) : Nat :=
  ((match t.mer with
    | .pm => 0
    | .am => 12) + (t.h.toNat - 1)) * 3600 + t.m.toNat * 60 + t.s.toNat

/-- A word the opcode map gives an operation (30_encoding.md R68, R70). -/
def Legal (w : Word) : Prop := ∃ i, decode w = .ok i

/-- An outcome a safe run may have: a next state (00_scope.md R16). -/
def Completes {P : Params} (o : Host.Outcome (State P) Fault Refusal) : Prop := ∃ t, o = .next t

/-- The block with exactly these words presented, in this order (20_memory.md R57). -/
def State.presenting (s : State) (ws : List Word) : State := s.withInputs (ws.map .word)

/-- The net movement encoder `e` reports over a list of samples: the sum of the steps that QDEC.STEP drives on `res`
(41_quadrature.md R102, R104). -/
def netStep (e : Fin 2) : List (BitVec 2) → State → Int
  | [], _ => 0
  | raw :: rest, s =>
    match exec (.qdecStep e raw) s with
    | .next t => ((t.res.bind stepVal).getD 0) + netStep e rest t
    | .fault _ => 0
    | .refused _ => 0

/-- The rates of 00_scope.md R8, in Hz. No operation reads them (70_reset_and_hazards.md R192; log 16). -/
structure Rates where
  fTick : ℚ
  fSample : ℚ
  fMux : ℚ

/-- The legal values of the rates, for given lengths DWELL_LEN and BLANK_LEN (00_scope.md R8). -/
def Rates.Legal (r : Rates) (P : Params := Config.params) : Prop :=
  0 < r.fTick ∧ 0 < r.fSample ∧ 60 * 5 * ((P.dwellLen : ℚ) + P.blankLen) ≤ r.fMux

/-- The full-display refresh rate, F_MUX / (5 * (DWELL_LEN + BLANK_LEN)) (43_display.md R149). -/
def Rates.refresh (r : Rates) (P : Params := Config.params) : ℚ := r.fMux / (5 * ((P.dwellLen : ℚ) + P.blankLen))

/-- The least time a press takes to be reported, DEB_N / F_SAMPLE seconds (40_debounce.md R96). -/
def Rates.debounceTime (r : Rates) (P : Params := Config.params) : ℚ := P.debN / r.fSample

/-- The sequencer has just entered cell 0: index 0, DWELL, count 0 (43_display.md R149). -/
def State.AtCycleStart {P : Params} (s : State P) : Prop := s.seqIdx = 0 ∧ s.seqPh = .dwell ∧ s.seqCnt = 0

end Sys2Proof.Machine
end

