-- ==== Sys2Proof/Certificates/Slice0/Obligations.lean ====
section
/-! DEFINITION. The statements for the provers, from the numbered rules of spec/. A statement whose docstring names a log
entry rests on a choice of the model's. -/

open Sys2Proof Sys2Proof.Machine

/-! ### Encoding -/

/-- Decoding the word of a well-formed operation gives that operation back, with every operand at every value
(30_encoding.md R66, R68, R70). The encoding is the spec's decision D2. -/
def Obligations.DecodeOfEncode : Prop :=
  ∀ i : Instr, i.wellFormed = true → decode (encode i) = .ok i

/-- Each legal word stands for one well-formed operation, whose word it is: no bit of a word is dropped (R68, R70,
R72). The encoding is the spec's decision D2. -/
def Obligations.EncodeOfDecode : Prop :=
  ∀ (w : Word) (i : Instr), decode w = .ok i → i.wellFormed = true ∧ encode i = w

/-- Which words are refused, and why, against the match and mask of R68 written out (R70, R71, R72). The spec's
decision D4. -/
def Obligations.ReservedWordsAreRefusedByReason : Prop :=
  ∀ w : Word,
    (decode w = .error .reservedOpcode ↔ 0xD ≤ (w >>> 12).toNat) ∧
    (decode w = .error .reservedFieldBits ↔
      ∃ p ∈ ([(0x0000, 0xFFFF), (0x1000, 0xF0FE), (0x2000, 0xFEFC), (0x3000, 0xFFFF), (0x4000, 0xFFFE),
          (0x5000, 0xFEFC), (0x6000, 0xFEFC), (0x7000, 0xFEFF), (0x8000, 0xFFFF), (0x9000, 0xFFFF),
          (0xA000, 0xFFFF), (0xB000, 0xFFFC), (0xC000, 0xFFFC)] : List (Word × Word)),
        w >>> 12 = p.1 >>> 12 ∧ w &&& p.2 ≠ p.1) ∧
    (decode w = .error .buttonIndexOutOfRange ↔ w &&& 0xF0FE = 0x1000 ∧ 8 ≤ ((w >>> 8) &&& 0xF).toNat) ∧
    (decode w = .error .reservedStepCode ↔ (w &&& 0xFEFC = 0x5000 ∨ w &&& 0xFEFC = 0x6000) ∧ w &&& 0x3 = 0x2)

/-- No word selects two rows of the opcode map (R69). Derived in R69. -/
def Obligations.OpcodeMapRowsDoNotOverlap : Prop :=
  ∀ (w : Word) (r₁ r₂ : Row), r₁ ∈ opcodeMap → r₂ ∈ opcodeMap → w &&& r₁.mask = r₁.pattern →
    w &&& r₂.mask = r₂.pattern → r₁.pattern = r₂.pattern

/-- Words written out from the patterns of R68 and the spellings of R78 decode to the operations they stand for.
Sanity only; the encoding is the spec's decision D2. -/
def Obligations.WordsOfTheMapDecode : Prop :=
  decode 0x0000 = .ok .nop ∧ decode 0x1301 = .ok (.debSample 3 1) ∧ decode 0x2102 = .ok (.qdecStep 1 0b10) ∧
  decode 0x3000 = .ok .tbTick ∧ decode 0x4001 = .ok (.tbEn true) ∧ decode 0x5003 = .ok (.edMin .clk 0b11) ∧
  decode 0x6103 = .ok (.edHour .alm 0b11) ∧ decode 0x7100 = .ok (.edMer .alm) ∧ decode 0x8000 = .ok .alTen ∧
  decode 0x9000 = .ok .alSnooze ∧ decode 0xA000 = .ok .alDismiss ∧ decode 0xB003 = .ok (.fmt .toggleFormat) ∧
  decode 0xC002 = .ok (.muxStep .setAlarm)

/-- A serialised word has its high byte first and reads back as it was (20_memory.md R54). The spec's decision D30. -/
def Obligations.SerialisedWordsReadBack : Prop :=
  ∀ (w : Word) (rest : List Byte),
    w.toBytes = [(w >>> 8).setWidth 8, w.setWidth 8] ∧ wordOfBytes (w.toBytes ++ rest) = some (w, rest)

/-- The written form of a well-formed operation assembles to that one operation (30_encoding.md R76; log 22). -/
def Obligations.AssemblyOfAnOperationReadsBack : Prop :=
  ∀ i : Instr, i.wellFormed = true → assembleLine (asm i) = some [i]

/-! ### The step -/

/-- When the next thing presented is a word that decodes to `i`, the step is `exec` of `i` on the state from whose
inputs that word has been taken (00_scope.md R15, R16; log 1). -/
def Obligations.StepRunsTheDecodedWord : Prop :=
  ∀ (s : State) (w : Word) (rest : List Input) (i : Instr), s.inputs = .word w :: rest → decode w = .ok i →
    step s = exec i { s with inputs := rest }

/-- A reserved word is refused with the reason of R70, and the result port carries 0b00 (R70, R74; log 11). The spec's
decision D4. -/
def Obligations.StepRefusesAReservedWord : Prop :=
  ∀ (s : State) (w : Word) (rest : List Input) (why : Reserved), s.inputs = .word w :: rest →
    decode w = .error why → step s = .refused (.reserved why) ∧ resPort (step s) = some 0b00

/-- With nothing presented there is no step (30_encoding.md R65), and every step that performs an operation performs
that of exactly one presented legal word (00_scope.md R15, R65). The rest is the model's choice: that no step is
answered by a named refusal (log 2), on which the port has no value (log 24); that what is presented stands in a list,
whose head the step takes (log 1); that `rst` is an event of that list with a step of its own, after which the rest
stays presented (log 20), at draws numbered by the resets (log 6) and with `res` absent (log 3). The word format is
the spec's decision D2, the input `rst` its decision D37. -/
def Obligations.EveryStepTakesOnePresentedEvent : Prop :=
  (∀ s : State, s.inputs = [] → step s = .refused .nothingPresented ∧ resPort (step s) = none) ∧
  ∀ s t : State, step s = .next t →
    (∃ rest, s.inputs = .rst :: rest ∧ t = s.takeReset rest) ∨
    ∃ w i rest, s.inputs = .word w :: rest ∧ decode w = .ok i ∧ exec i { s with inputs := rest } = .next t

/-- Asserting `rst` puts every field at its reset value and the histories at draws (70_reset_and_hazards.md R180,
R181). Three clauses are the model's choice: the draws are numbered by the resets (log 6), what is presented after
`rst` stays presented (log 20), and `res` is then absent (log 3). The input `rst` is the spec's decision D37. -/
def Obligations.StepTakesReset : Prop :=
  ∀ (s : State) (rest : List Input), s.inputs = .rst :: rest →
    ∃ t, step s = .next t ∧ t.clk = ⟨12, 0, 0, .am⟩ ∧ t.alm = ⟨12, 0, 0, .am⟩ ∧ t.almEn = false ∧
      t.almRing = false ∧ t.tickEn = true ∧ t.blink = false ∧ t.colonOn = false ∧
      (∀ i : Fin 8, t.deb.get i = Config.debReset (s.resets + 1) i.val) ∧
      (∀ e : Fin 2, t.qh.get e = Config.qdecReset (s.resets + 1) e.val) ∧
      (∀ k : Fin 5, t.cells.get k = 0x00) ∧ t.seqIdx = 0 ∧ t.seqPh = .dwell ∧ t.seqCnt = 0 ∧
      t.inputs = rest ∧ t.res = none ∧ t.resets = s.resets + 1

/-- The state after power-up is the reset summary of 10_state.md R38, with the histories at the draws. R38 is derived
from R22 to R33, with the decisions D14, D20, D22 and D28 (log 23). -/
def Obligations.ResetStateIsTheResetSummary : Prop :=
  State.reset.clk = ⟨12, 0, 0, .am⟩ ∧ State.reset.alm = ⟨12, 0, 0, .am⟩ ∧ State.reset.almEn = false ∧
    State.reset.almRing = false ∧ State.reset.tickEn = true ∧ State.reset.blink = false ∧
    State.reset.colonOn = false ∧ (∀ i : Fin 8, State.reset.deb.get i = Config.debReset 0 i.val) ∧
    (∀ e : Fin 2, State.reset.qh.get e = Config.qdecReset 0 e.val) ∧
    (∀ k : Fin 5, State.reset.cells.get k = 0x00) ∧ State.reset.seqIdx = 0 ∧ State.reset.seqPh = .dwell ∧
    State.reset.seqCnt = 0

/-- Running the block over presented legal words is the left-to-right composition of their operations, and it
completes (20_memory.md R57, 30_encoding.md R65). Derived in R57; that the words stand in a list is the model's
choice, log 1. -/
def Obligations.RunsComposeTheOperations : Prop :=
  ∀ (s : State) (ws : List Word), (∀ w ∈ ws, Legal w) →
    ∃ (is : List Instr) (t : State), ws.map decode = is.map .ok ∧
      Host.Core.run Sys2Proof.core ws.length (s.presenting ws) = .next t ∧
      execAll is (s.presenting []) = .next t ∧ t.inputs = []

/-- A reserved word ends every run that reaches it: the refusal is the run's outcome whatever is presented afterwards
(30_encoding.md R74; log 11). The spec's decision D4. -/
def Obligations.RefusalMarksTheWholeRun : Prop :=
  ∀ (s : State) (before after : List Word) (w : Word) (why : Reserved) (k : Nat), (∀ v ∈ before, Legal v) →
    decode w = .error why → before.length < k →
    Host.Core.run Sys2Proof.core k (s.presenting (before ++ w :: after)) = .refused (.reserved why)

/-! ### Invariants -/

/-- The parameters of this hardware are legal (00_scope.md R8, 41_quadrature.md R101), and the reset state satisfies
the invariants below, here and for any legal parameters (10_state.md R38, R33, R32). -/
def Obligations.ResetStateIsGood : Prop :=
  Config.params.Legal ∧ State.reset.Inv ∧
    ∀ (P : Params) (k : Nat) (inputs : List Input), P.Legal → (State.powerUp k inputs : State P).Inv

/-- Every step keeps every time field in its range, here and for any legal parameters (42_timebase.md R130,
00_scope.md R8). Derived in R130. -/
def Obligations.StepKeepsTimesInRange : Prop :=
  (∀ s t : State, s.TimesInRange → step s = .next t → t.TimesInRange) ∧
  ∀ (P : Params) (s t : State P), P.Legal → s.TimesInRange → stepOf s = .next t → t.TimesInRange

/-- Every step keeps the sequencer in its range, here, whatever DWELL_LEN and BLANK_LEN are, and for any legal
parameters (10_state.md R33, 43_display.md R148, 00_scope.md R8). The spec's decision D27; the lengths are open (log
7). -/
def Obligations.StepKeepsSequencerInRange : Prop :=
  (∀ s t : State, s.SequencerInRange → step s = .next t → t.SequencerInRange) ∧
  ∀ (P : Params) (s t : State P), P.Legal → s.SequencerInRange → stepOf s = .next t → t.SequencerInRange

/-- Every step keeps the five cells those of one format pass over one time in range, or all dark, here and for any
legal parameters (20_memory.md R61, 43_display.md R153, 00_scope.md R8). The spec's decision D40 (log 21). -/
def Obligations.StepKeepsCellsFromOnePass : Prop :=
  (∀ s t : State, s.TimesInRange → s.CellsFromOnePass → step s = .next t → t.CellsFromOnePass) ∧
  ∀ (P : Params) (s t : State P), P.Legal → s.TimesInRange → s.CellsFromOnePass → stepOf s = .next t →
    t.CellsFromOnePass

/-! ### Debounce Engine -/

/-- DEB.SAMPLE shifts the level into the one history it names, forces the pad, and reports a match with 0xF000;
nothing else changes (40_debounce.md R91). The constants are the spec's decision D6 (log 9). -/
def Obligations.DebSampleShiftsAndReports : Prop :=
  ∀ (s : State) (i : BitVec 4) (lvl : BitVec 1) (h : i.toNat < 8),
    ∃ t, exec (.debSample i lvl) s = .next t ∧ t = { s with deb := t.deb, res := t.res } ∧
      (∀ j : Fin 8, j.val ≠ i.toNat → t.deb.get j = s.deb.get j) ∧
      (t.deb.get ⟨i.toNat, h⟩).getLsbD 0 = lvl.getLsbD 0 ∧
      (∀ k, 1 ≤ k → k ≤ 12 → (t.deb.get ⟨i.toNat, h⟩).getLsbD k = (s.deb.get ⟨i.toNat, h⟩).getLsbD (k - 1)) ∧
      (∀ k, 13 ≤ k → k ≤ 15 → (t.deb.get ⟨i.toNat, h⟩).getLsbD k = true) ∧
      t.res = some (if t.deb.get ⟨i.toNat, h⟩ = 0xF000 then 0b01 else 0b00)

/-- An operand the opcode map excludes is refused, by the operation and by the decoder alike (30_encoding.md R72; log
12). The spec's decision D4. -/
def Obligations.ExcludedOperandsAreRefused : Prop :=
  ∀ (s : State) (i : BitVec 4) (lvl : BitVec 1) (ent : Entity), 8 ≤ i.toNat →
    exec (.debSample i lvl) s = .refused (.reserved .buttonIndexOutOfRange) ∧
    decode (encode (.debSample i lvl)) = .error .buttonIndexOutOfRange ∧
    exec (.edMin ent 0b10) s = .refused (.reserved .reservedStepCode) ∧
    decode (encode (.edMin ent 0b10)) = .error .reservedStepCode ∧
    exec (.edHour ent 0b10) s = .refused (.reserved .reservedStepCode) ∧
    decode (encode (.edHour ent 0b10)) = .error .reservedStepCode

/-- After DEB_N + DEB_M samples or more, whatever the history held before, a press is reported exactly when the newest
DEB_N samples are all 0 and the DEB_M before them all 1 (40_debounce.md R93). Derived in R93; the constants are the
spec's decision D6 (log 9). -/
def Obligations.PressIsLowRunAfterSettledHigh : Prop :=
  ∀ (s : State) (i : BitVec 4) (before highs lows : List (BitVec 1)), i.toNat < 8 → highs.length = debM →
    lows.length = debN →
    ∃ t, execAll ((before ++ highs ++ lows).map (.debSample i)) s = .next t ∧
      (t.res = some 0b01 ↔ (∀ x ∈ highs, x = 1) ∧ (∀ x ∈ lows, x = 0))

/-- After a reported press the same button reports again only after DEB_N + DEB_M samples or more, one of them high
(40_debounce.md R94). Derived in R94; the constants are the spec's decision D6 (log 9). -/
def Obligations.OneEventPerPress : Prop :=
  ∀ (s t u : State) (i : BitVec 4) (lvl : BitVec 1) (more : List (BitVec 1)),
    exec (.debSample i lvl) s = .next t → t.res = some 0b01 → more ≠ [] →
    execAll (more.map (.debSample i)) t = .next u → u.res = some 0b01 →
    debN + debM ≤ more.length ∧ 1 ∈ more

/-! ### Quadrature Decoder -/

/-- QDEC.STEP shifts the sample into the one history it names and reports the table's step; nothing else changes
(41_quadrature.md R102, R101). The table is the spec's decision D10 (log 10). -/
def Obligations.QdecStepShiftsAndDecodes : Prop :=
  ∀ (s : State) (e : Fin 2) (raw : BitVec 2),
    ∃ t, exec (.qdecStep e raw) s = .next t ∧ t = { s with qh := t.qh, res := t.res } ∧
      (∀ j : Fin 2, j ≠ e → t.qh.get j = s.qh.get j) ∧
      t.qh.get e = (s.qh.get e).extractLsb' 0 2 ++ raw ∧
      t.res = some (if t.qh.get e = 0x1 ∨ t.qh.get e = 0xE then 0b01
        else if t.qh.get e = 0x4 ∨ t.qh.get e = 0xB then 0b11 else 0b00)

/-- Each forward half-cycle reports +1 and then 0, each backward one 0 and then -1 (41_quadrature.md R103). Derived in
R103; the table is the spec's decision D10 (log 10). -/
def Obligations.HalfCyclesReportOneStep : Prop :=
  ∀ (s : State) (e : Fin 2) (start a b : BitVec 2) (r₁ r₂ : BitVec 2),
    (start, a, b, r₁, r₂) ∈ ([(0b00, 0b01, 0b11, 0b01, 0b00), (0b11, 0b10, 0b00, 0b01, 0b00),
      (0b00, 0b10, 0b11, 0b00, 0b11), (0b11, 0b01, 0b00, 0b00, 0b11)] :
        List (BitVec 2 × BitVec 2 × BitVec 2 × BitVec 2 × BitVec 2)) →
    (s.qh.get e).extractLsb' 0 2 = start →
    ∃ t u, exec (.qdecStep e a) s = .next t ∧ t.res = some r₁ ∧ exec (.qdecStep e b) t = .next u ∧ u.res = some r₂

/-- A stream whose only moves are single-bit glitches away from the current sample and back has net step 0
(41_quadrature.md R104). Derived in R104; the table is the spec's decision D10 (log 10). -/
def Obligations.GlitchesCancel : Prop :=
  ∀ (s : State) (e : Fin 2) (c : BitVec 2) (glitches : List (BitVec 2)), (s.qh.get e).extractLsb' 0 2 = c →
    (∀ g ∈ glitches, g ^^^ c = 0b01 ∨ g ^^^ c = 0b10) →
    netStep e (glitches.flatMap fun g => [g, c]) s = 0

/-- From the second sample after reset on, an encoder's report and history depend only on the samples; the first
report can depend on what the history held (41_quadrature.md R106). Derived in R106. -/
def Obligations.OnlyTheFirstStepSeesTheDraw : Prop :=
  (∀ (s s' t t' : State) (e : Fin 2) (a b : BitVec 2) (more : List (BitVec 2)),
    execAll ((a :: b :: more).map (.qdecStep e)) s = .next t →
    execAll ((a :: b :: more).map (.qdecStep e)) s' = .next t' → t.res = t'.res ∧ t.qh.get e = t'.qh.get e) ∧
  ∀ e : Fin 2, ∃ (s s' t t' : State) (a : BitVec 2), s' = { s with qh := s'.qh } ∧
    exec (.qdecStep e a) s = .next t ∧ exec (.qdecStep e a) s' = .next t' ∧ t.res ≠ t'.res

/-! ### Time Base -/

/-- NOP changes no state (42_timebase.md R127). That the word exists is the spec's decision D2. -/
def Obligations.NopChangesNothing : Prop :=
  ∀ s : State, exec .nop s = .next { s with res := some 0b00 }

/-- An accepted tick from a time in range: the four cases of the carry chain, BLINK, the comparison after the carry;
nothing else changes (42_timebase.md R110, R111, R112). BLINK is the spec's decision D21 (log 21). -/
def Obligations.AcceptedTickCountsOneSecond : Prop :=
  ∀ s : State, s.tickEn = true → s.clk.InRange →
    ∃ t, exec .tbTick s = .next t ∧
      t = { s with clk := t.clk, blink := true, almRing := t.almRing, res := some 0b00 } ∧
      (s.clk.s.toNat < 59 →
        t.clk.s.toNat = s.clk.s.toNat + 1 ∧ t.clk.m = s.clk.m ∧ t.clk.h = s.clk.h ∧ t.clk.mer = s.clk.mer) ∧
      (s.clk.s = 59 → s.clk.m.toNat < 59 →
        t.clk.s = 0 ∧ t.clk.m.toNat = s.clk.m.toNat + 1 ∧ t.clk.h = s.clk.h ∧ t.clk.mer = s.clk.mer) ∧
      (s.clk.s = 59 → s.clk.m = 59 → s.clk.h.toNat < 12 →
        t.clk.s = 0 ∧ t.clk.m = 0 ∧ t.clk.h.toNat = s.clk.h.toNat + 1 ∧ t.clk.mer = s.clk.mer) ∧
      (s.clk.s = 59 → s.clk.m = 59 → s.clk.h = 12 →
        t.clk.s = 0 ∧ t.clk.m = 0 ∧ t.clk.h = 1 ∧ t.clk.mer ≠ s.clk.mer) ∧
      (t.almRing = true ↔ s.almRing = true ∨ (s.almEn = true ∧ t.clk.h = s.alm.h ∧ t.clk.m = s.alm.m ∧
        t.clk.s = s.alm.s ∧ t.clk.mer = s.alm.mer))

/-- A tick while TICK_EN = 0 changes no state (42_timebase.md R113). The spec's decision D13 (log 21). -/
def Obligations.SuspendedTickIsDiscarded : Prop :=
  ∀ s : State, s.tickEn = false → exec .tbTick s = .next { s with res := some 0b00 }

/-- From any time in range, the accepted ticks visit every time in range within 86 400 ticks, and come back after
exactly that many: one cycle (42_timebase.md R129). Derived in R129. -/
def Obligations.TicksRunThroughOneCycle : Prop :=
  ∀ (s : State) (target : TimeOfDay), s.tickEn = true → s.clk.InRange → target.InRange →
    (∃ k t, k < 86400 ∧ execAll (List.replicate k .tbTick) s = .next t ∧ t.clk = target) ∧
    ∃ t, execAll (List.replicate 86400 .tbTick) s = .next t ∧ t.clk = s.clk

/-- 60 accepted ticks advance the minutes once and 3600 the hours once, through the carry chain, with the lower fields
as they were; from hours 12 the hour carry gives 1 and the other meridiem (42_timebase.md R128). Derived in R128. -/
def Obligations.CountingLawsOfTheTick : Prop :=
  ∀ s : State, s.tickEn = true → s.clk.InRange →
    (∃ t, execAll (List.replicate 60 .tbTick) s = .next t ∧
      t.clk = ({ s.clk with m := s.clk.m + 1 } : TimeOfDay).carryMinutes.carryHours) ∧
    ∃ t, execAll (List.replicate 3600 .tbTick) s = .next t ∧
      t.clk = ({ s.clk with h := s.clk.h + 1 } : TimeOfDay).carryHours ∧
      (s.clk.h = 12 → t.clk.h = 1 ∧ t.clk.mer ≠ s.clk.mer)

/-- TB.EN, its two words 0x4000 and 0x4001: it writes TICK_EN and nothing else (42_timebase.md R114). -/
def Obligations.TbEnWritesTickEnable : Prop :=
  ∀ (s : State) (b : Bool), decode (if b = true then 0x4001 else 0x4000) = .ok (.tbEn b) ∧
    exec (.tbEn b) s = .next { s with tickEn := b, res := some 0b00 }

/-! ### Field edits -/

/-- ED.MIN steps the minutes of one entity modulo 60 and changes nothing else, the hours and the alarm flags included
(42_timebase.md R116). No carry is the spec's decision D16 (log 21). -/
def Obligations.EdMinStepsTheMinutes : Prop :=
  ∀ (s : State) (ent : Entity) (st : BitVec 2) (d : Int), (st, d) ∈ [(0b00, 0), (0b01, 1), (0b11, -1)] →
    ∃ (t : State) (m : BitVec 6), exec (.edMin ent st) s = .next t ∧
      (m.toNat : Int) = (((s.time ent).m.toNat : Int) + d) % 60 ∧
      t = match ent with
        | .clk => { s with clk := { s.clk with m := m }, res := some 0b00 }
        | .alm => { s with alm := { s.alm with m := m }, res := some 0b00 }

/-- ED.HOUR steps the hours of one entity over 1..12 and changes nothing else, the meridiem included (42_timebase.md
R117). The kept meridiem is the spec's decision D16 (log 21). -/
def Obligations.EdHourStepsTheHours : Prop :=
  ∀ (s : State) (ent : Entity) (st : BitVec 2) (d : Int), (st, d) ∈ [(0b00, 0), (0b01, 1), (0b11, -1)] →
    ∃ (t : State) (h : BitVec 4), exec (.edHour ent st) s = .next t ∧
      (h.toNat : Int) = (((s.time ent).h.toNat : Int) - 1 + d) % 12 + 1 ∧
      t = match ent with
        | .clk => { s with clk := { s.clk with h := h }, res := some 0b00 }
        | .alm => { s with alm := { s.alm with h := h }, res := some 0b00 }

/-- ED.MER, its two words 0x7000 and 0x7100: it inverts the meridiem of one entity, changes nothing else, and twice
restores it (42_timebase.md R118). -/
def Obligations.EdMerTogglesTheMeridiem : Prop :=
  ∀ (s : State) (ent : Entity), decode (if ent = .clk then 0x7000 else 0x7100) = .ok (.edMer ent) ∧
    ∃ (t : State) (mer : Meridiem), exec (.edMer ent) s = .next t ∧ mer ≠ (s.time ent).mer ∧
      (t = match ent with
        | .clk => { s with clk := { s.clk with mer := mer }, res := some 0b00 }
        | .alm => { s with alm := { s.alm with mer := mer }, res := some 0b00 }) ∧
      exec (.edMer ent) t = .next { s with res := some 0b00 }

/-! ### Alarm -/

/-- AL.TEN inverts ALM.EN and keeps ALM.RING; nothing else changes (42_timebase.md R119). The kept ringing is the
spec's decision D19 (log 21). -/
def Obligations.AlTenTogglesTheEnable : Prop :=
  ∀ s : State, exec .alTen s = .next { s with almEn := !s.almEn, res := some 0b00 }

/-- AL.SNOOZE while ringing stops the ringing and moves the alarm SNOOZE_OFFSET = 10 places on in the time cycle, all
carries included; while not ringing it changes nothing (42_timebase.md R120, R123). The carries and the offset are the
spec's decision D17, the guard D18 (log 9, log 21). -/
def Obligations.AlSnoozeDefersTheAlarm : Prop :=
  ∀ s : State,
    (s.almRing = true → s.alm.InRange →
      ∃ t, exec .alSnooze s = .next t ∧ t = { s with alm := t.alm, almRing := false, res := some 0b00 } ∧
        t.alm.InRange ∧ t.alm.place = (s.alm.place + 10) % 86400) ∧
    (s.almRing = false → exec .alSnooze s = .next { s with res := some 0b00 })

/-- Two times in range at the same place of the cycle are equal, and every place below 86 400 is some time's: the
place used above loses nothing (42_timebase.md R129). Derived in R129; the start of the count is the model's. -/
def Obligations.PlaceNamesTheTime : Prop :=
  (∀ t u : TimeOfDay, t.InRange → u.InRange → t.place = u.place → t = u) ∧
  (∀ t : TimeOfDay, t.InRange → t.place < 86400) ∧ ∀ n < 86400, ∃ t : TimeOfDay, t.InRange ∧ t.place = n

/-- AL.DISMISS, the word 0xA000: while ringing it stops the ringing and disarms the alarm; while not ringing it
changes nothing (42_timebase.md R122). -/
def Obligations.AlDismissDisarms : Prop :=
  decode 0xA000 = .ok .alDismiss ∧ ∀ s : State,
    (s.almRing = true → exec .alDismiss s = .next { s with almRing := false, almEn := false, res := some 0b00 }) ∧
    (s.almRing = false → exec .alDismiss s = .next { s with res := some 0b00 })

/-- A snooze performed `j` ticks after the alarm rang, `j` below SNOOZE_OFFSET, rings again at the tick that brings
the clock to the deferred time, and at none before (42_timebase.md R121). Derived in R121; the offset is the spec's
decision D17 (log 9, log 21). -/
def Obligations.SnoozeRingsOnceMore : Prop :=
  ∀ (s : State) (j n : Nat), s.tickEn = true → s.almEn = true → s.almRing = true → s.clk.InRange → s.alm.InRange →
    s.clk.place = (s.alm.place + j) % 86400 → j < 10 → n ≤ 10 - j →
    ∃ t, execAll (.alSnooze :: List.replicate n .tbTick) s = .next t ∧ (t.almRing = true ↔ n = 10 - j)

/-- ALM.RING is set exactly by an accepted tick that lands on the alarm time, all four components, while the alarm is
enabled and not ringing; a tick that finds it ringing leaves it so (42_timebase.md R112). -/
def Obligations.OnlyATickStartsRinging : Prop :=
  ∀ (i : Instr) (s t : State), exec i s = .next t →
    (s.almRing = false →
      (t.almRing = true ↔ i = .tbTick ∧ s.tickEn = true ∧ s.almEn = true ∧ t.clk.h = s.alm.h ∧ t.clk.m = s.alm.m ∧
        t.clk.s = s.alm.s ∧ t.clk.mer = s.alm.mer)) ∧
    (s.almRing = true → i = .tbTick → t.almRing = true)

/-- ALM.RING is cleared only by AL.SNOOZE and AL.DISMISS (10_state.md R26, 42_timebase.md R125). Derived in R125; that
AL.TEN keeps it is the spec's decision D19 (log 21). -/
def Obligations.OnlySnoozeOrDismissStopsRinging : Prop :=
  ∀ (i : Instr) (s t : State), exec i s = .next t → s.almRing = true → t.almRing = false →
    i = .alSnooze ∨ i = .alDismiss

/-! ### Display -/

/-- FMT writes the five cells from the shown entity, ALM.EN and the colon state, and consumes BLINK; nothing else
changes (43_display.md R143, with the glyphs of R140 written out). The colon is the spec's decision D21, the cells D23
to D25 (log 19, log 21). -/
def Obligations.FmtWritesTheCells : Prop :=
  ∀ (s : State) (mode : Mode),
    let g : Nat → Byte := fun k =>
      ([0x3F, 0x06, 0x5B, 0x4F, 0x66, 0x6D, 0x7D, 0x07, 0x7F, 0x6F] : List Byte).getD k 0x00
    let e : TimeOfDay := if mode = .setAlarm then s.alm else s.clk
    ∃ t, exec (.fmt mode) s = .next t ∧
      t = { s with cells := t.cells, colonOn := (s.colonOn != s.blink), blink := false, res := some 0b00 } ∧
      t.cells.get 0 = (g (e.m.toNat % 10) ||| if e.mer = .pm then 0x80 else 0x00) ∧
      t.cells.get 1 = g (e.m.toNat / 10) ∧
      t.cells.get 2 = (if s.colonOn != s.blink then 0x03 else 0x00) ∧
      t.cells.get 3 = g (e.h.toNat % 10) ∧
      t.cells.get 4 = (g (e.h.toNat / 10) ||| if s.almEn = true then 0x80 else 0x00)

/-- After a format pass, bit 7 of cell 0 is the shown meridiem, bit 7 of cell 4 is ALM.EN in every mode, and no other
cell has bit 7 set (43_display.md R145, R146). The shown entity is the spec's decision D23, the bit D25 (log 19). -/
def Obligations.IndicatorBitsShowPmAndAlarm : Prop :=
  ∀ (s t : State) (mode : Mode), exec (.fmt mode) s = .next t →
    ((t.cells.get 0).getLsbD 7 = true ↔ (if mode = .setAlarm then s.alm else s.clk).mer = .pm) ∧
    ((t.cells.get 4).getLsbD 7 = true ↔ s.almEn = true) ∧
    (t.cells.get 1).getLsbD 7 = false ∧ (t.cells.get 2).getLsbD 7 = false ∧ (t.cells.get 3).getLsbD 7 = false

/-- The cells of a format pass are a function of the shown minutes, hours and meridiem, ALM.EN, COLON_ON and BLINK
alone (43_display.md R144). Derived in R144. -/
def Obligations.FormatPassIsPure : Prop :=
  ∀ (s s' t t' : State) (mode : Mode) (e e' : TimeOfDay), e = (if mode = .setAlarm then s.alm else s.clk) →
    e' = (if mode = .setAlarm then s'.alm else s'.clk) → e.m = e'.m → e.h = e'.h → e.mer = e'.mer →
    s.almEn = s'.almEn → s.colonOn = s'.colonOn → s.blink = s'.blink →
    exec (.fmt mode) s = .next t → exec (.fmt mode) s' = .next t' → t.cells = t'.cells

/-- Mode 3, TOGGLE_FORMAT, is accepted by FMT and MUX.STEP, the words 0xB003 and 0xC003, and formats exactly as NORMAL
does (43_display.md R154). -/
def Obligations.ToggleFormatFormatsAsNormal : Prop :=
  decode 0xB003 = .ok (.fmt .toggleFormat) ∧ decode 0xC003 = .ok (.muxStep .toggleFormat) ∧ ∀ s : State,
    Completes (exec (.fmt .toggleFormat) s) ∧ exec (.fmt .toggleFormat) s = exec (.fmt .normal) s ∧
    Completes (exec (.muxStep .toggleFormat) s) ∧ exec (.muxStep .toggleFormat) s = exec (.muxStep .normal) s

/-- MUX.STEP: every case of the sequencer, whatever DWELL_LEN and BLANK_LEN are, with a format pass exactly on
entering cell 0; nothing else changes (43_display.md R148). The spec's decision D27; the lengths are open (log 7). -/
def Obligations.MuxStepAdvancesTheSequencer : Prop :=
  ∀ (s : State) (mode : Mode), ∃ t, exec (.muxStep mode) s = .next t ∧
    (s.seqPh = .dwell → s.seqCnt + 1 < Config.dwellLen → t = { s with seqCnt := s.seqCnt + 1, res := some 0b00 }) ∧
    (s.seqPh = .dwell → Config.dwellLen ≤ s.seqCnt + 1 → 0 < Config.blankLen →
      t = { s with seqPh := .blank, seqCnt := 0, res := some 0b00 }) ∧
    (s.seqPh = .blank → s.seqCnt + 1 < Config.blankLen → t = { s with seqCnt := s.seqCnt + 1, res := some 0b00 }) ∧
    ((s.seqPh = .dwell ∧ Config.dwellLen ≤ s.seqCnt + 1 ∧ Config.blankLen = 0) ∨
        (s.seqPh = .blank ∧ Config.blankLen ≤ s.seqCnt + 1) →
      (s.seqIdx ≠ 4 →
        t = { s with seqIdx := s.seqIdx + 1, seqPh := .dwell, seqCnt := 0, res := some 0b00 }) ∧
      (s.seqIdx = 4 → ∃ u, exec (.fmt mode) s = .next u ∧ t = { u with seqIdx := 0, seqPh := .dwell, seqCnt := 0 }))

/-- One render cycle from the entry to cell 0: after `n` steps the sequencer stands in cell `n / (DWELL_LEN +
BLANK_LEN)`, lit for the first DWELL_LEN steps of the cell and dark for the rest, with the cells as they were; the
last of the 5 * (DWELL_LEN + BLANK_LEN) steps returns to the entry and performs the cycle's one format pass
(43_display.md R149, R150, 30_encoding.md R77). Derived in R149 and R150; the lengths are open (log 7). -/
def Obligations.RenderCycleStrobesEachCellAlike : Prop :=
  ∀ (s : State) (mode : Mode), s.seqIdx = 0 → s.seqPh = .dwell → s.seqCnt = 0 →
    (∀ n < 5 * (Config.dwellLen + Config.blankLen), ∃ t,
      execAll (List.replicate n (.muxStep mode)) s = .next t ∧
      t.seqIdx.val = n / (Config.dwellLen + Config.blankLen) ∧
      (n % (Config.dwellLen + Config.blankLen) < Config.dwellLen →
        t.seqPh = .dwell ∧ t.seqCnt = n % (Config.dwellLen + Config.blankLen)) ∧
      (Config.dwellLen ≤ n % (Config.dwellLen + Config.blankLen) →
        t.seqPh = .blank ∧ t.seqCnt = n % (Config.dwellLen + Config.blankLen) - Config.dwellLen) ∧
      t.cells = s.cells ∧ t.blink = s.blink ∧ t.colonOn = s.colonOn) ∧
    ∃ t u, execAll (expand (.render mode : Pseudo)) s = .next t ∧ exec (.fmt mode) s = .next u ∧
      t = { s with cells := u.cells, colonOn := u.colonOn, blink := u.blink, res := some 0b00 }

/-- The select code is the cell index, never above 4; the segments are the strobed cell while lit and dark while
blanking, inverted at the pins exactly when SEG_ACTIVE_LOW (43_display.md R151, R152). The spec's decisions D26 and
D29; the polarity is open (log 8). -/
def Obligations.SegmentAndSelectOutputs : Prop :=
  ∀ s : State, s.selOut.toNat = s.seqIdx.val ∧ s.selOut.toNat ≤ 4 ∧
    (s.seqPh = .dwell → s.seg = s.cells.get s.seqIdx) ∧ (s.seqPh = .blank → s.seg = 0x00) ∧
    (Config.segActiveLow = true → s.segOut = s.seg ^^^ 0xFF) ∧ (Config.segActiveLow = false → s.segOut = s.seg)

/-- After ticks, at least one of them accepted, any format passes toggle the colon exactly once in all (42_timebase.md
R111, 70_reset_and_hazards.md R187). The spec's decision D21 (log 21). -/
def Obligations.ColonTogglesOncePerConsumedBlink : Prop :=
  ∀ (s t : State) (n : Nat) (mode : Mode) (modes : List Mode), s.tickEn = true → 1 ≤ n →
    execAll (List.replicate n .tbTick ++ .fmt mode :: modes.map .fmt) s = .next t →
    t.colonOn = !s.colonOn ∧ t.blink = false

/-! ### The whole machine -/

/-- Which operations write which field: the W entries of the table, with its starred ones only in the step that enters
cell 0 (10_state.md R37). Derived in R37. -/
def Obligations.EveryFieldHasItsWriters : Prop :=
  ∀ (i : Instr) (s t : State), exec i s = .next t →
    (t.clk ≠ s.clk → i = .tbTick ∨ (∃ st, i = .edMin .clk st) ∨ (∃ st, i = .edHour .clk st) ∨ i = .edMer .clk) ∧
    (t.alm ≠ s.alm → i = .alSnooze ∨ (∃ st, i = .edMin .alm st) ∨ (∃ st, i = .edHour .alm st) ∨ i = .edMer .alm) ∧
    (t.almEn ≠ s.almEn → i = .alTen ∨ i = .alDismiss) ∧
    (t.almRing ≠ s.almRing → i = .tbTick ∨ i = .alSnooze ∨ i = .alDismiss) ∧
    (t.tickEn ≠ s.tickEn → ∃ b, i = .tbEn b) ∧
    (t.blink ≠ s.blink → i = .tbTick ∨ (∃ m, i = .fmt m) ∨
      ∃ m, i = .muxStep m ∧ s.seqIdx = 4 ∧ t.seqIdx = 0 ∧ t.seqPh = .dwell ∧ t.seqCnt = 0) ∧
    (t.colonOn ≠ s.colonOn → (∃ m, i = .fmt m) ∨
      ∃ m, i = .muxStep m ∧ s.seqIdx = 4 ∧ t.seqIdx = 0 ∧ t.seqPh = .dwell ∧ t.seqCnt = 0) ∧
    (∀ k : Fin 8, t.deb.get k ≠ s.deb.get k → ∃ lvl, i = .debSample (BitVec.ofNat 4 k.val) lvl) ∧
    (∀ e : Fin 2, t.qh.get e ≠ s.qh.get e → ∃ raw, i = .qdecStep e raw) ∧
    (t.cells ≠ s.cells → (∃ m, i = .fmt m) ∨
      ∃ m, i = .muxStep m ∧ s.seqIdx = 4 ∧ t.seqIdx = 0 ∧ t.seqPh = .dwell ∧ t.seqCnt = 0) ∧
    (t.seqIdx ≠ s.seqIdx ∨ t.seqPh ≠ s.seqPh ∨ t.seqCnt ≠ s.seqCnt → ∃ m, i = .muxStep m) ∧
    t.inputs = s.inputs ∧ t.resets = s.resets

/-- Seconds change by the tick alone, the alarm's by a snooze alone (10_state.md R23, 42_timebase.md R124). Derived in
R124. -/
def Obligations.OnlyTicksAndSnoozesWriteSeconds : Prop :=
  ∀ (i : Instr) (s t : State), exec i s = .next t →
    (t.clk.s ≠ s.clk.s → i = .tbTick) ∧ (t.alm.s ≠ s.alm.s → i = .alSnooze)

/-- Each history is seen only through its own sampling operation's result: any other operation behaves alike whatever
the history holds (10_state.md R36, R30, R31). -/
def Obligations.HistoriesAreHidden : Prop :=
  (∀ (i : Instr) (s t : State) (d : Vector (BitVec 16) 8), (∀ k lvl, i ≠ .debSample k lvl) → exec i s = .next t →
    exec i { s with deb := d } = .next { t with deb := d }) ∧
  ∀ (i : Instr) (s t : State) (q : Vector (BitVec 4) 2), (∀ e raw, i ≠ .qdecStep e raw) → exec i s = .next t →
    exec i { s with qh := q } = .next { t with qh := q }

/-- DEB.SAMPLE commutes with every operation but DEB.SAMPLE on the same input, and QDEC.STEP with every operation but
QDEC.STEP on the same encoder: both orders complete, end alike but for `res`, and report alike (20_memory.md R59).
Derived in R59. -/
def Obligations.SamplesCommuteWithOtherOperations : Prop :=
  ∀ (s : State) (i j : Instr), i.wellFormed = true → j.wellFormed = true →
    ((∃ k lvl, i = .debSample k lvl ∧ ∀ lvl', j ≠ .debSample k lvl') ∨
      (∃ e raw, i = .qdecStep e raw ∧ ∀ raw', j ≠ .qdecStep e raw')) →
    ∃ a ab b ba, exec i s = .next a ∧ exec j a = .next ab ∧ exec j s = .next b ∧ exec i b = .next ba ∧
      { ab with res := none } = { ba with res := none } ∧ a.res = ba.res ∧ b.res = ab.res

/-- The tick does not commute with a minutes edit of the clock: from 12:59:59 AM the two orders end at 01:01:00 PM and
at 12:01:00 AM (20_memory.md R59). Derived in R59. -/
def Obligations.TickAndEditDoNotCommute : Prop :=
  ∀ s : State, s.tickEn = true → s.clk = ⟨12, 59, 59, .am⟩ →
    ∃ t u, execAll [.tbTick, .edMin .clk 0b01] s = .next t ∧ t.clk = ⟨1, 1, 0, .pm⟩ ∧
      execAll [.edMin .clk 0b01, .tbTick] s = .next u ∧ u.clk = ⟨12, 1, 0, .am⟩

/-- However the sampling stream is interleaved with the other sources' words, the histories end as the sampling stream
alone leaves them (20_memory.md R58, R59, 60_exceptions.md R163). The open order is the spec's decision D1 (log 17);
the rest derives from R59. -/
def Obligations.InterleavingKeepsTheHistories : Prop :=
  ∀ (s t u : State) (samples others out : List Instr),
    (∀ i ∈ samples, Source.sampling.delivers i = true) → (∀ i ∈ others, Source.sampling.delivers i = false) →
    Interleaves [samples, others] out → execAll out s = .next t → execAll samples s = .next u →
    t.deb = u.deb ∧ t.qh = u.qh

/-- NOP, TB.EN, AL.DISMISS, and AL.SNOOZE while not ringing: performing one twice leaves what performing it once does
(20_memory.md R56). Derived in R56. -/
def Obligations.IdempotentOperations : Prop :=
  ∀ (s t : State) (i : Instr),
    (i = .nop ∨ (∃ b, i = .tbEn b) ∨ i = .alDismiss ∨ (i = .alSnooze ∧ s.almRing = false)) →
    exec i s = .next t → exec i t = .next t

/-- The result port carries 0b00 after every operation but the two sampling ones; DEB.SAMPLE drives 0b00 or 0b01, and
QDEC.STEP never the reserved code 0b10 (30_encoding.md R67, 00_scope.md R13). The spec's decisions D3 and D12. -/
def Obligations.ResultPortCarriesOnlySampleResults : Prop :=
  ∀ (i : Instr) (s t : State), exec i s = .next t →
    ((∀ k lvl, i ≠ .debSample k lvl) → (∀ e raw, i ≠ .qdecStep e raw) → t.res = some 0b00) ∧
    ((∃ k lvl, i = .debSample k lvl) → t.res = some 0b00 ∨ t.res = some 0b01) ∧
    ((∃ e raw, i = .qdecStep e raw) → t.res = some 0b00 ∨ t.res = some 0b01 ∨ t.res = some 0b11)

/-- The code QDEC.STEP drives on `res` is a step operand that ED.MIN and ED.HOUR take, and it moves the minutes by the
step the decoder saw (41_quadrature.md R108, 30_encoding.md R66). The code is the spec's decision D12. -/
def Obligations.DecoderResultFeedsTheEdits : Prop :=
  ∀ (s t u : State) (e : Fin 2) (raw r : BitVec 2) (ent : Entity), exec (.qdecStep e raw) s = .next t →
    t.res = some r →
    ∃ v w, exec (.edMin ent r) u = .next v ∧ exec (.edHour ent r) u = .next w ∧
      ((v.time ent).m.toNat : Int) = ((u.time ent).m.toNat + qdecTable (t.qh.get e)) % 60

/-- The render cycle of the machine, at a legal F_MUX: from the entry to cell 0, the least number `n > 0` of MUX.STEP
operations that comes back to that entry lights every cell on the way, and F_MUX / n, the cycles a second where
MUX.STEP comes at F_MUX, is the refresh rate of R149 and at least 60 Hz (43_display.md R149, 00_scope.md R8). Derived
in R149; the rate is an assumption on the environment that no operation reads (log 16), and the lengths are open (log
7). -/
def Obligations.LegalRatesRefreshAtSixtyHertz : Prop :=
  ∀ (s : State) (mode : Mode) (r : Rates), s.AtCycleStart → r.Legal →
    ∃ n : Nat, 0 < n ∧
      (∃ t, execAll (List.replicate n (.muxStep mode)) s = .next t ∧ t.AtCycleStart) ∧
      (∀ m t, 0 < m → m < n → execAll (List.replicate m (.muxStep mode)) s = .next t → ¬ t.AtCycleStart) ∧
      (∀ k : Fin 5, ∃ m < n, ∃ t, execAll (List.replicate m (.muxStep mode)) s = .next t ∧ t.seqIdx = k ∧
        t.seqPh = .dwell) ∧
      r.refresh = r.fMux / n ∧ 60 ≤ r.fMux / n
end

