-- ==== Sys2Proof/Laws/State.lean ====
section
/-! SUPPORT. One lemma per field per update of the state, so that no later proof unfolds a record update. -/

namespace Sys2Proof.Machine.State

variable {P : Params}

/-! ### The result port -/

@[simp] theorem drive_clk (s : State P) (r : BitVec 2) : (s.drive r).clk = s.clk := rfl
@[simp] theorem drive_alm (s : State P) (r : BitVec 2) : (s.drive r).alm = s.alm := rfl
@[simp] theorem drive_almEn (s : State P) (r : BitVec 2) : (s.drive r).almEn = s.almEn := rfl
@[simp] theorem drive_almRing (s : State P) (r : BitVec 2) : (s.drive r).almRing = s.almRing := rfl
@[simp] theorem drive_tickEn (s : State P) (r : BitVec 2) : (s.drive r).tickEn = s.tickEn := rfl
@[simp] theorem drive_blink (s : State P) (r : BitVec 2) : (s.drive r).blink = s.blink := rfl
@[simp] theorem drive_colonOn (s : State P) (r : BitVec 2) : (s.drive r).colonOn = s.colonOn := rfl
@[simp] theorem drive_deb (s : State P) (r : BitVec 2) : (s.drive r).deb = s.deb := rfl
@[simp] theorem drive_qh (s : State P) (r : BitVec 2) : (s.drive r).qh = s.qh := rfl
@[simp] theorem drive_cells (s : State P) (r : BitVec 2) : (s.drive r).cells = s.cells := rfl
@[simp] theorem drive_seqIdx (s : State P) (r : BitVec 2) : (s.drive r).seqIdx = s.seqIdx := rfl
@[simp] theorem drive_seqPh (s : State P) (r : BitVec 2) : (s.drive r).seqPh = s.seqPh := rfl
@[simp] theorem drive_seqCnt (s : State P) (r : BitVec 2) : (s.drive r).seqCnt = s.seqCnt := rfl
@[simp] theorem drive_inputs (s : State P) (r : BitVec 2) : (s.drive r).inputs = s.inputs := rfl
@[simp] theorem drive_res (s : State P) (r : BitVec 2) : (s.drive r).res = some r := rfl
@[simp] theorem drive_resets (s : State P) (r : BitVec 2) : (s.drive r).resets = s.resets := rfl

/-! ### Writing DEB[i] -/

@[simp] theorem setDeb_clk (s : State P) (i : Fin P.numButtons) (v : BitVec P.debW) : (s.setDeb i v).clk = s.clk := rfl
@[simp] theorem setDeb_alm (s : State P) (i : Fin P.numButtons) (v : BitVec P.debW) : (s.setDeb i v).alm = s.alm := rfl
@[simp] theorem setDeb_almEn (s : State P) (i : Fin P.numButtons) (v : BitVec P.debW) : (s.setDeb i v).almEn = s.almEn := rfl
@[simp] theorem setDeb_almRing (s : State P) (i : Fin P.numButtons) (v : BitVec P.debW) : (s.setDeb i v).almRing = s.almRing := rfl
@[simp] theorem setDeb_tickEn (s : State P) (i : Fin P.numButtons) (v : BitVec P.debW) : (s.setDeb i v).tickEn = s.tickEn := rfl
@[simp] theorem setDeb_blink (s : State P) (i : Fin P.numButtons) (v : BitVec P.debW) : (s.setDeb i v).blink = s.blink := rfl
@[simp] theorem setDeb_colonOn (s : State P) (i : Fin P.numButtons) (v : BitVec P.debW) : (s.setDeb i v).colonOn = s.colonOn := rfl
@[simp] theorem setDeb_deb (s : State P) (i : Fin P.numButtons) (v : BitVec P.debW) : (s.setDeb i v).deb = s.deb.set i.val v i.isLt := rfl
@[simp] theorem setDeb_qh (s : State P) (i : Fin P.numButtons) (v : BitVec P.debW) : (s.setDeb i v).qh = s.qh := rfl
@[simp] theorem setDeb_cells (s : State P) (i : Fin P.numButtons) (v : BitVec P.debW) : (s.setDeb i v).cells = s.cells := rfl
@[simp] theorem setDeb_seqIdx (s : State P) (i : Fin P.numButtons) (v : BitVec P.debW) : (s.setDeb i v).seqIdx = s.seqIdx := rfl
@[simp] theorem setDeb_seqPh (s : State P) (i : Fin P.numButtons) (v : BitVec P.debW) : (s.setDeb i v).seqPh = s.seqPh := rfl
@[simp] theorem setDeb_seqCnt (s : State P) (i : Fin P.numButtons) (v : BitVec P.debW) : (s.setDeb i v).seqCnt = s.seqCnt := rfl
@[simp] theorem setDeb_inputs (s : State P) (i : Fin P.numButtons) (v : BitVec P.debW) : (s.setDeb i v).inputs = s.inputs := rfl
@[simp] theorem setDeb_res (s : State P) (i : Fin P.numButtons) (v : BitVec P.debW) : (s.setDeb i v).res = s.res := rfl
@[simp] theorem setDeb_resets (s : State P) (i : Fin P.numButtons) (v : BitVec P.debW) : (s.setDeb i v).resets = s.resets := rfl

/-! ### Writing QH[e] -/

@[simp] theorem setQh_clk (s : State P) (e : Fin Config.numEncoders) (v : BitVec 4) : (s.setQh e v).clk = s.clk := rfl
@[simp] theorem setQh_alm (s : State P) (e : Fin Config.numEncoders) (v : BitVec 4) : (s.setQh e v).alm = s.alm := rfl
@[simp] theorem setQh_almEn (s : State P) (e : Fin Config.numEncoders) (v : BitVec 4) : (s.setQh e v).almEn = s.almEn := rfl
@[simp] theorem setQh_almRing (s : State P) (e : Fin Config.numEncoders) (v : BitVec 4) : (s.setQh e v).almRing = s.almRing := rfl
@[simp] theorem setQh_tickEn (s : State P) (e : Fin Config.numEncoders) (v : BitVec 4) : (s.setQh e v).tickEn = s.tickEn := rfl
@[simp] theorem setQh_blink (s : State P) (e : Fin Config.numEncoders) (v : BitVec 4) : (s.setQh e v).blink = s.blink := rfl
@[simp] theorem setQh_colonOn (s : State P) (e : Fin Config.numEncoders) (v : BitVec 4) : (s.setQh e v).colonOn = s.colonOn := rfl
@[simp] theorem setQh_deb (s : State P) (e : Fin Config.numEncoders) (v : BitVec 4) : (s.setQh e v).deb = s.deb := rfl
@[simp] theorem setQh_qh (s : State P) (e : Fin Config.numEncoders) (v : BitVec 4) : (s.setQh e v).qh = s.qh.set e.val v e.isLt := rfl
@[simp] theorem setQh_cells (s : State P) (e : Fin Config.numEncoders) (v : BitVec 4) : (s.setQh e v).cells = s.cells := rfl
@[simp] theorem setQh_seqIdx (s : State P) (e : Fin Config.numEncoders) (v : BitVec 4) : (s.setQh e v).seqIdx = s.seqIdx := rfl
@[simp] theorem setQh_seqPh (s : State P) (e : Fin Config.numEncoders) (v : BitVec 4) : (s.setQh e v).seqPh = s.seqPh := rfl
@[simp] theorem setQh_seqCnt (s : State P) (e : Fin Config.numEncoders) (v : BitVec 4) : (s.setQh e v).seqCnt = s.seqCnt := rfl
@[simp] theorem setQh_inputs (s : State P) (e : Fin Config.numEncoders) (v : BitVec 4) : (s.setQh e v).inputs = s.inputs := rfl
@[simp] theorem setQh_res (s : State P) (e : Fin Config.numEncoders) (v : BitVec 4) : (s.setQh e v).res = s.res := rfl
@[simp] theorem setQh_resets (s : State P) (e : Fin Config.numEncoders) (v : BitVec 4) : (s.setQh e v).resets = s.resets := rfl

/-! ### A format pass -/

@[simp] theorem formatPass_clk (s : State P) (mode : Mode) : (s.formatPass mode).clk = s.clk := rfl
@[simp] theorem formatPass_alm (s : State P) (mode : Mode) : (s.formatPass mode).alm = s.alm := rfl
@[simp] theorem formatPass_almEn (s : State P) (mode : Mode) : (s.formatPass mode).almEn = s.almEn := rfl
@[simp] theorem formatPass_almRing (s : State P) (mode : Mode) : (s.formatPass mode).almRing = s.almRing := rfl
@[simp] theorem formatPass_tickEn (s : State P) (mode : Mode) : (s.formatPass mode).tickEn = s.tickEn := rfl
@[simp] theorem formatPass_blink (s : State P) (mode : Mode) : (s.formatPass mode).blink = false := rfl
@[simp] theorem formatPass_colonOn (s : State P) (mode : Mode) : (s.formatPass mode).colonOn = colonAfterPass s.colonOn s.blink := rfl
@[simp] theorem formatPass_deb (s : State P) (mode : Mode) : (s.formatPass mode).deb = s.deb := rfl
@[simp] theorem formatPass_qh (s : State P) (mode : Mode) : (s.formatPass mode).qh = s.qh := rfl
@[simp] theorem formatPass_cells (s : State P) (mode : Mode) : (s.formatPass mode).cells = cellsOf P.colonGlyph (s.time (shownEntity mode)) s.almEn (colonAfterPass s.colonOn s.blink) := rfl
@[simp] theorem formatPass_seqIdx (s : State P) (mode : Mode) : (s.formatPass mode).seqIdx = s.seqIdx := rfl
@[simp] theorem formatPass_seqPh (s : State P) (mode : Mode) : (s.formatPass mode).seqPh = s.seqPh := rfl
@[simp] theorem formatPass_seqCnt (s : State P) (mode : Mode) : (s.formatPass mode).seqCnt = s.seqCnt := rfl
@[simp] theorem formatPass_inputs (s : State P) (mode : Mode) : (s.formatPass mode).inputs = s.inputs := rfl
@[simp] theorem formatPass_res (s : State P) (mode : Mode) : (s.formatPass mode).res = s.res := rfl
@[simp] theorem formatPass_resets (s : State P) (mode : Mode) : (s.formatPass mode).resets = s.resets := rfl

/-! ### An accepted tick -/

@[simp] theorem acceptTick_clk (s : State P) : (s.acceptTick).clk = s.clk.tick := rfl
@[simp] theorem acceptTick_alm (s : State P) : (s.acceptTick).alm = s.alm := rfl
@[simp] theorem acceptTick_almEn (s : State P) : (s.acceptTick).almEn = s.almEn := rfl
@[simp] theorem acceptTick_almRing (s : State P) : (s.acceptTick).almRing = ringAfterTick s.almEn s.almRing s.clk.tick s.alm := rfl
@[simp] theorem acceptTick_tickEn (s : State P) : (s.acceptTick).tickEn = s.tickEn := rfl
@[simp] theorem acceptTick_blink (s : State P) : (s.acceptTick).blink = true := rfl
@[simp] theorem acceptTick_colonOn (s : State P) : (s.acceptTick).colonOn = s.colonOn := rfl
@[simp] theorem acceptTick_deb (s : State P) : (s.acceptTick).deb = s.deb := rfl
@[simp] theorem acceptTick_qh (s : State P) : (s.acceptTick).qh = s.qh := rfl
@[simp] theorem acceptTick_cells (s : State P) : (s.acceptTick).cells = s.cells := rfl
@[simp] theorem acceptTick_seqIdx (s : State P) : (s.acceptTick).seqIdx = s.seqIdx := rfl
@[simp] theorem acceptTick_seqPh (s : State P) : (s.acceptTick).seqPh = s.seqPh := rfl
@[simp] theorem acceptTick_seqCnt (s : State P) : (s.acceptTick).seqCnt = s.seqCnt := rfl
@[simp] theorem acceptTick_inputs (s : State P) : (s.acceptTick).inputs = s.inputs := rfl
@[simp] theorem acceptTick_res (s : State P) : (s.acceptTick).res = s.res := rfl
@[simp] theorem acceptTick_resets (s : State P) : (s.acceptTick).resets = s.resets := rfl

/-! ### Taking an input -/

@[simp] theorem withInputs_clk (s : State P) (rest : List Input) : (s.withInputs rest).clk = s.clk := rfl
@[simp] theorem withInputs_alm (s : State P) (rest : List Input) : (s.withInputs rest).alm = s.alm := rfl
@[simp] theorem withInputs_almEn (s : State P) (rest : List Input) : (s.withInputs rest).almEn = s.almEn := rfl
@[simp] theorem withInputs_almRing (s : State P) (rest : List Input) : (s.withInputs rest).almRing = s.almRing := rfl
@[simp] theorem withInputs_tickEn (s : State P) (rest : List Input) : (s.withInputs rest).tickEn = s.tickEn := rfl
@[simp] theorem withInputs_blink (s : State P) (rest : List Input) : (s.withInputs rest).blink = s.blink := rfl
@[simp] theorem withInputs_colonOn (s : State P) (rest : List Input) : (s.withInputs rest).colonOn = s.colonOn := rfl
@[simp] theorem withInputs_deb (s : State P) (rest : List Input) : (s.withInputs rest).deb = s.deb := rfl
@[simp] theorem withInputs_qh (s : State P) (rest : List Input) : (s.withInputs rest).qh = s.qh := rfl
@[simp] theorem withInputs_cells (s : State P) (rest : List Input) : (s.withInputs rest).cells = s.cells := rfl
@[simp] theorem withInputs_seqIdx (s : State P) (rest : List Input) : (s.withInputs rest).seqIdx = s.seqIdx := rfl
@[simp] theorem withInputs_seqPh (s : State P) (rest : List Input) : (s.withInputs rest).seqPh = s.seqPh := rfl
@[simp] theorem withInputs_seqCnt (s : State P) (rest : List Input) : (s.withInputs rest).seqCnt = s.seqCnt := rfl
@[simp] theorem withInputs_inputs (s : State P) (rest : List Input) : (s.withInputs rest).inputs = rest := rfl
@[simp] theorem withInputs_res (s : State P) (rest : List Input) : (s.withInputs rest).res = s.res := rfl
@[simp] theorem withInputs_resets (s : State P) (rest : List Input) : (s.withInputs rest).resets = s.resets := rfl

/-! ### Presenting a word -/

@[simp] theorem present_clk (s : State P) (w : Word) : (s.present w).clk = s.clk := rfl
@[simp] theorem present_alm (s : State P) (w : Word) : (s.present w).alm = s.alm := rfl
@[simp] theorem present_almEn (s : State P) (w : Word) : (s.present w).almEn = s.almEn := rfl
@[simp] theorem present_almRing (s : State P) (w : Word) : (s.present w).almRing = s.almRing := rfl
@[simp] theorem present_tickEn (s : State P) (w : Word) : (s.present w).tickEn = s.tickEn := rfl
@[simp] theorem present_blink (s : State P) (w : Word) : (s.present w).blink = s.blink := rfl
@[simp] theorem present_colonOn (s : State P) (w : Word) : (s.present w).colonOn = s.colonOn := rfl
@[simp] theorem present_deb (s : State P) (w : Word) : (s.present w).deb = s.deb := rfl
@[simp] theorem present_qh (s : State P) (w : Word) : (s.present w).qh = s.qh := rfl
@[simp] theorem present_cells (s : State P) (w : Word) : (s.present w).cells = s.cells := rfl
@[simp] theorem present_seqIdx (s : State P) (w : Word) : (s.present w).seqIdx = s.seqIdx := rfl
@[simp] theorem present_seqPh (s : State P) (w : Word) : (s.present w).seqPh = s.seqPh := rfl
@[simp] theorem present_seqCnt (s : State P) (w : Word) : (s.present w).seqCnt = s.seqCnt := rfl
@[simp] theorem present_inputs (s : State P) (w : Word) : (s.present w).inputs = .word w :: s.inputs := rfl
@[simp] theorem present_res (s : State P) (w : Word) : (s.present w).res = s.res := rfl
@[simp] theorem present_resets (s : State P) (w : Word) : (s.present w).resets = s.resets := rfl

/-! ### Writing an entity's time fields -/

@[simp] theorem setTime_clk_clk (s : State P) (t : TimeOfDay) : (s.setTime .clk t).clk = t := rfl
@[simp] theorem setTime_alm_alm (s : State P) (t : TimeOfDay) : (s.setTime .alm t).alm = t := rfl
@[simp] theorem setTime_alm_clk (s : State P) (t : TimeOfDay) : (s.setTime .alm t).clk = s.clk := rfl
@[simp] theorem setTime_clk_alm (s : State P) (t : TimeOfDay) : (s.setTime .clk t).alm = s.alm := rfl
@[simp] theorem setTime_almEn (s : State P) (ent : Entity) (t : TimeOfDay) : (s.setTime ent t).almEn = s.almEn := by
  cases ent <;> rfl
@[simp] theorem setTime_almRing (s : State P) (ent : Entity) (t : TimeOfDay) : (s.setTime ent t).almRing = s.almRing := by
  cases ent <;> rfl
@[simp] theorem setTime_tickEn (s : State P) (ent : Entity) (t : TimeOfDay) : (s.setTime ent t).tickEn = s.tickEn := by
  cases ent <;> rfl
@[simp] theorem setTime_blink (s : State P) (ent : Entity) (t : TimeOfDay) : (s.setTime ent t).blink = s.blink := by
  cases ent <;> rfl
@[simp] theorem setTime_colonOn (s : State P) (ent : Entity) (t : TimeOfDay) : (s.setTime ent t).colonOn = s.colonOn := by
  cases ent <;> rfl
@[simp] theorem setTime_deb (s : State P) (ent : Entity) (t : TimeOfDay) : (s.setTime ent t).deb = s.deb := by
  cases ent <;> rfl
@[simp] theorem setTime_qh (s : State P) (ent : Entity) (t : TimeOfDay) : (s.setTime ent t).qh = s.qh := by
  cases ent <;> rfl
@[simp] theorem setTime_cells (s : State P) (ent : Entity) (t : TimeOfDay) : (s.setTime ent t).cells = s.cells := by
  cases ent <;> rfl
@[simp] theorem setTime_seqIdx (s : State P) (ent : Entity) (t : TimeOfDay) : (s.setTime ent t).seqIdx = s.seqIdx := by
  cases ent <;> rfl
@[simp] theorem setTime_seqPh (s : State P) (ent : Entity) (t : TimeOfDay) : (s.setTime ent t).seqPh = s.seqPh := by
  cases ent <;> rfl
@[simp] theorem setTime_seqCnt (s : State P) (ent : Entity) (t : TimeOfDay) : (s.setTime ent t).seqCnt = s.seqCnt := by
  cases ent <;> rfl
@[simp] theorem setTime_inputs (s : State P) (ent : Entity) (t : TimeOfDay) : (s.setTime ent t).inputs = s.inputs := by
  cases ent <;> rfl
@[simp] theorem setTime_res (s : State P) (ent : Entity) (t : TimeOfDay) : (s.setTime ent t).res = s.res := by
  cases ent <;> rfl
@[simp] theorem setTime_resets (s : State P) (ent : Entity) (t : TimeOfDay) : (s.setTime ent t).resets = s.resets := by
  cases ent <;> rfl

@[simp] theorem time_clk (s : State P) : s.time .clk = s.clk := rfl
@[simp] theorem time_alm (s : State P) : s.time .alm = s.alm := rfl
@[simp] theorem time_drive (s : State P) (r : BitVec 2) (ent : Entity) : (s.drive r).time ent = s.time ent := by
  cases ent <;> rfl
@[simp] theorem time_setTime (s : State P) (ent : Entity) (t : TimeOfDay) : (s.setTime ent t).time ent = t := by
  cases ent <;> rfl
@[simp] theorem time_withInputs (s : State P) (rest : List Input) (ent : Entity) :
    (s.withInputs rest).time ent = s.time ent := by
  cases ent <;> rfl

/-! ### Reading a history after a write -/

@[simp] theorem setDeb_get_self (s : State P) (i : Fin P.numButtons) (v : BitVec P.debW) :
    (s.setDeb i v).deb.get i = v := by
  simp [Vector.get_eq_getElem]
theorem setDeb_get_other (s : State P) (i j : Fin P.numButtons) (v : BitVec P.debW) (h : j ≠ i) :
    (s.setDeb i v).deb.get j = s.deb.get j := by
  simp [Vector.get_eq_getElem, Fin.val_ne_of_ne h.symm]
@[simp] theorem setQh_get_self (s : State P) (e : Fin Config.numEncoders) (v : BitVec 4) :
    (s.setQh e v).qh.get e = v := by
  simp [Vector.get_eq_getElem]
theorem setQh_get_other (s : State P) (e j : Fin Config.numEncoders) (v : BitVec 4) (h : j ≠ e) :
    (s.setQh e v).qh.get j = s.qh.get j := by
  simp [Vector.get_eq_getElem, Fin.val_ne_of_ne h.symm]

end Sys2Proof.Machine.State
end

