-- ==== Sys2Proof/Laws/Display.lean ====
section
/-! SUPPORT. What a format pass writes and the cases of the sequencer (43_display.md R143, R148). -/

namespace Sys2Proof.Machine

variable {P : Params}

theorem shownEntity_time (s : State P) (mode : Mode) :
    s.time (shownEntity mode) = if mode = .setAlarm then s.alm else s.clk := by
  cases mode <;> rfl

@[simp] theorem cellsOf_get_zero (c : Byte) (t : TimeOfDay) (en colon : Bool) :
    (cellsOf c t en colon).get 0 = glyph (t.m.toNat % 10) ||| indicator (t.mer == .pm) := rfl

@[simp] theorem cellsOf_get_one (c : Byte) (t : TimeOfDay) (en colon : Bool) :
    (cellsOf c t en colon).get 1 = glyph (t.m.toNat / 10) := rfl

@[simp] theorem cellsOf_get_two (c : Byte) (t : TimeOfDay) (en colon : Bool) :
    (cellsOf c t en colon).get 2 = if colon then c else 0x00 := rfl

@[simp] theorem cellsOf_get_three (c : Byte) (t : TimeOfDay) (en colon : Bool) :
    (cellsOf c t en colon).get 3 = glyph (t.h.toNat % 10) := rfl

@[simp] theorem cellsOf_get_four (c : Byte) (t : TimeOfDay) (en colon : Bool) :
    (cellsOf c t en colon).get 4 = glyph (t.h.toNat / 10) ||| indicator en := rfl

/-- The glyph table written out (43_display.md R140). -/
theorem glyph_eq (k : Nat) :
    glyph k = ([0x3F, 0x06, 0x5B, 0x4F, 0x66, 0x6D, 0x7D, 0x07, 0x7F, 0x6F] : List Byte).getD k 0x00 := by
  by_cases h : k < 10
  · interval_cases k <;> rfl
  · rw [List.getD_eq_default _ _ (by simp; omega)]
    unfold glyph
    split <;> first | omega | rfl

theorem glyph_bit7 (k : Nat) : (glyph k).getLsbD 7 = false := by
  unfold glyph
  split <;> rfl

@[simp] theorem indicator_bit7 (on : Bool) : (indicator on).getLsbD 7 = on := by cases on <;> rfl

theorem State.advance_of_last {s : State P} (h : s.seqIdx = 4) (mode : Mode) :
    s.advance mode = ({ s with seqIdx := 0 } : State P).formatPass mode := if_pos h

theorem State.advance_of_not_last {s : State P} (h : s.seqIdx ≠ 4) (mode : Mode) :
    s.advance mode = { s with seqIdx := s.seqIdx + 1 } := if_neg h

theorem State.sequencerStep_dwell_on {s : State P} {d : Nat} (hp : s.seqPh = .dwell) (h : s.seqCnt + 1 < d) (b : Nat)
    (mode : Mode) : s.sequencerStep d b mode = { s with seqCnt := s.seqCnt + 1 } := by
  unfold State.sequencerStep
  rw [hp]
  exact if_pos h

theorem State.sequencerStep_dwell_to_blank {s : State P} {d b : Nat} (hp : s.seqPh = .dwell) (h : d ≤ s.seqCnt + 1)
    (hb : 0 < b) (mode : Mode) : s.sequencerStep d b mode = { s with seqCnt := 0, seqPh := .blank } := by
  unfold State.sequencerStep
  rw [hp]
  exact (if_neg (by omega)).trans (if_pos hb)

theorem State.sequencerStep_dwell_advance {s : State P} {d : Nat} (hp : s.seqPh = .dwell) (h : d ≤ s.seqCnt + 1)
    (mode : Mode) : s.sequencerStep d 0 mode = ({ s with seqCnt := 0, seqPh := .dwell } : State P).advance mode := by
  unfold State.sequencerStep
  rw [hp]
  exact ((if_neg (by omega)).trans (if_neg (by omega))).trans (by rw [← hp])

theorem State.sequencerStep_blank_on {s : State P} {b : Nat} (hp : s.seqPh = .blank) (h : s.seqCnt + 1 < b) (d : Nat)
    (mode : Mode) : s.sequencerStep d b mode = { s with seqCnt := s.seqCnt + 1 } := by
  unfold State.sequencerStep
  rw [hp]
  exact if_pos h

theorem State.sequencerStep_blank_advance {s : State P} {b : Nat} (hp : s.seqPh = .blank) (h : b ≤ s.seqCnt + 1) (d : Nat)
    (mode : Mode) : s.sequencerStep d b mode = ({ s with seqCnt := 0, seqPh := .dwell } : State P).advance mode := by
  unfold State.sequencerStep
  rw [hp]
  exact if_neg (by omega)

/-- Everything a MUX.STEP can do, for given lengths: count on, start blanking, or go to the next cell (R148). -/
theorem State.sequencerStep_cases (s : State P) (d b : Nat) (mode : Mode) :
    (s.seqPh = .dwell ∧ s.seqCnt + 1 < d ∧ s.sequencerStep d b mode = { s with seqCnt := s.seqCnt + 1 }) ∨
    (s.seqPh = .blank ∧ s.seqCnt + 1 < b ∧ s.sequencerStep d b mode = { s with seqCnt := s.seqCnt + 1 }) ∨
    (s.seqPh = .dwell ∧ d ≤ s.seqCnt + 1 ∧ 0 < b ∧
      s.sequencerStep d b mode = { s with seqCnt := 0, seqPh := .blank }) ∨
    (((s.seqPh = .dwell ∧ d ≤ s.seqCnt + 1 ∧ b = 0) ∨ (s.seqPh = .blank ∧ b ≤ s.seqCnt + 1)) ∧
      s.sequencerStep d b mode = ({ s with seqCnt := 0, seqPh := .dwell } : State P).advance mode) := by
  obtain hp | hp : s.seqPh = .dwell ∨ s.seqPh = .blank := by
    cases s.seqPh
    · exact .inl rfl
    · exact .inr rfl
  · by_cases h1 : s.seqCnt + 1 < d
    · exact .inl ⟨hp, h1, State.sequencerStep_dwell_on hp h1 b mode⟩
    · by_cases h2 : 0 < b
      · exact .inr (.inr (.inl ⟨hp, by omega, h2, State.sequencerStep_dwell_to_blank hp (by omega) h2 mode⟩))
      · obtain rfl : b = 0 := by omega
        exact .inr (.inr (.inr ⟨.inl ⟨hp, by omega, rfl⟩, State.sequencerStep_dwell_advance hp (by omega) mode⟩))
  · by_cases h1 : s.seqCnt + 1 < b
    · exact .inr (.inl ⟨hp, h1, State.sequencerStep_blank_on hp h1 d mode⟩)
    · exact .inr (.inr (.inr ⟨.inr ⟨hp, by omega⟩, State.sequencerStep_blank_advance hp (by omega) d mode⟩))

/-- A MUX.STEP touches the sequencer and what a format pass writes, and nothing else (10_state.md R37). -/
theorem State.sequencerStep_frame (s : State P) (d b : Nat) (mode : Mode) :
    ∃ idx ph cnt cells blink colonOn, s.sequencerStep d b mode =
      { s with seqIdx := idx, seqPh := ph, seqCnt := cnt, cells := cells, blink := blink, colonOn := colonOn } := by
  rcases s.sequencerStep_cases d b mode with ⟨_, _, e⟩ | ⟨_, _, e⟩ | ⟨_, _, _, e⟩ | ⟨_, e⟩
  · exact ⟨s.seqIdx, s.seqPh, s.seqCnt + 1, s.cells, s.blink, s.colonOn, e⟩
  · exact ⟨s.seqIdx, s.seqPh, s.seqCnt + 1, s.cells, s.blink, s.colonOn, e⟩
  · exact ⟨s.seqIdx, .blank, 0, s.cells, s.blink, s.colonOn, e⟩
  · unfold State.advance at e
    split at e
    · exact ⟨_, _, _, _, _, _, e⟩
    · exact ⟨_, _, _, s.cells, s.blink, s.colonOn, e⟩

end Sys2Proof.Machine
end

