-- ==== Sys2Proof/Laws/Parametric.lean ====
section
/-! SUPPORT. This hardware is the parametric block at its own parameters (00_scope.md R8), and what an operation and a
step can do for any parameters, said once. -/

namespace Sys2Proof.Machine

variable {P : Params}

theorem exec_eq_perform (i : Instr) (s : State) : exec i s = perform i s := by cases i <;> rfl

theorem step_eq_stepOf (s : State) : step s = stepOf s :=
  congrArg s.stepWith (funext fun i => funext fun t => exec_eq_perform i t)

/-- This hardware is the block at `Config.params`. -/
theorem core_eq_coreOf : Sys2Proof.core = coreOf Config.params :=
  congrArg (fun f => Host.Core.mk State Fault Refusal f State.reset) (funext step_eq_stepOf)

/-- A step code has a value unless it is the reserved 0b10 (00_scope.md R13). -/
theorem stepVal_eq_none_iff (st : BitVec 2) : stepVal st = none ↔ st = 0b10#2 := by
  revert st; decide

/-- Everything an operation that answers a next state can have done: which case it was, and the state it left. -/
theorem perform_next_cases {i : Instr} {s t : State P} (h : perform i s = .next t) :
    (i = .nop ∧ t = s.drive 0b00) ∨
    (∃ (k : Fin P.numButtons) (lvl : BitVec 1), i = .debSample (BitVec.ofNat 4 k.val) lvl ∧
      t = (s.setDeb k (debounceShift P (s.deb.get k) lvl)).drive
        (pressedCode (pressed P (debounceShift P (s.deb.get k) lvl)))) ∨
    (∃ e raw, i = .qdecStep e raw ∧ t = (s.setQh e (quadratureShift (s.qh.get e) raw)).drive
      (stepCode (P.qdecTable (quadratureShift (s.qh.get e) raw)))) ∨
    (i = .tbTick ∧ s.tickEn = true ∧ t = s.acceptTick.drive 0b00) ∨
    (i = .tbTick ∧ s.tickEn = false ∧ t = s.drive 0b00) ∨
    (∃ b, i = .tbEn b ∧ t = ({ s with tickEn := b } : State P).drive 0b00) ∨
    (∃ ent st d, i = .edMin ent st ∧ stepVal st = some d ∧
      t = (s.setTime ent ((s.time ent).editMinutes d)).drive 0b00) ∨
    (∃ ent st d, i = .edHour ent st ∧ stepVal st = some d ∧
      t = (s.setTime ent ((s.time ent).editHours d)).drive 0b00) ∨
    (∃ ent, i = .edMer ent ∧ t = (s.setTime ent (s.time ent).editMeridiem).drive 0b00) ∨
    (i = .alTen ∧ t = ({ s with almEn := !s.almEn } : State P).drive 0b00) ∨
    (i = .alSnooze ∧ s.almRing = true ∧
      t = ({ s with almRing := false, alm := s.alm.defer P.snoozeOffset } : State P).drive 0b00) ∨
    (i = .alSnooze ∧ s.almRing = false ∧ t = s.drive 0b00) ∨
    (i = .alDismiss ∧ s.almRing = true ∧ t = ({ s with almRing := false, almEn := false } : State P).drive 0b00) ∨
    (i = .alDismiss ∧ s.almRing = false ∧ t = s.drive 0b00) ∨
    (∃ mode, i = .fmt mode ∧ t = (s.formatPass mode).drive 0b00) ∨
    (∃ mode, i = .muxStep mode ∧
      t = (s.sequencerStep P.dwellLen P.blankLen mode).drive 0b00) := by
  cases i with
  | nop => exact .inl ⟨rfl, (Host.Outcome.next.inj h).symm⟩
  | debSample i lvl =>
    simp only [perform, execDebSample] at h
    split at h
    · next hi => exact .inr (.inl ⟨⟨i.toNat, hi⟩, lvl, by simp, (Host.Outcome.next.inj h).symm⟩)
    · nomatch h
  | qdecStep e raw => exact .inr (.inr (.inl ⟨e, raw, rfl, (Host.Outcome.next.inj h).symm⟩))
  | tbTick =>
    have ht := (Host.Outcome.next.inj h).symm
    cases hen : s.tickEn <;> simp only [hen] at ht
    · exact .inr (.inr (.inr (.inr (.inl ⟨rfl, rfl, ht⟩))))
    · exact .inr (.inr (.inr (.inl ⟨rfl, rfl, ht⟩)))
  | tbEn b => exact .inr (.inr (.inr (.inr (.inr (.inl ⟨b, rfl, (Host.Outcome.next.inj h).symm⟩)))))
  | edMin ent st =>
    simp only [perform, execEdMin] at h
    split at h
    · next d hd =>
      exact .inr (.inr (.inr (.inr (.inr (.inr (.inl ⟨ent, st, d, rfl, hd, (Host.Outcome.next.inj h).symm⟩))))))
    · nomatch h
  | edHour ent st =>
    simp only [perform, execEdHour] at h
    split at h
    · next d hd =>
      exact .inr (.inr (.inr (.inr (.inr (.inr (.inr (.inl ⟨ent, st, d, rfl, hd, (Host.Outcome.next.inj h).symm⟩)))))))
    · nomatch h
  | edMer ent =>
    exact .inr (.inr (.inr (.inr (.inr (.inr (.inr (.inr (.inl ⟨ent, rfl, (Host.Outcome.next.inj h).symm⟩))))))))
  | alTen =>
    exact .inr (.inr (.inr (.inr (.inr (.inr (.inr (.inr (.inr (.inl ⟨rfl, (Host.Outcome.next.inj h).symm⟩)))))))))
  | alSnooze =>
    refine .inr (.inr (.inr (.inr (.inr (.inr (.inr (.inr (.inr (.inr ?_)))))))))
    have ht := (Host.Outcome.next.inj h).symm
    cases hr : s.almRing <;> simp only [hr] at ht
    · exact .inr (.inl ⟨rfl, rfl, ht⟩)
    · exact .inl ⟨rfl, rfl, ht⟩
  | alDismiss =>
    refine .inr (.inr (.inr (.inr (.inr (.inr (.inr (.inr (.inr (.inr (.inr (.inr ?_)))))))))))
    have ht := (Host.Outcome.next.inj h).symm
    cases hr : s.almRing <;> simp only [hr] at ht
    · exact .inr (.inl ⟨rfl, rfl, ht⟩)
    · exact .inl ⟨rfl, rfl, ht⟩
  | fmt mode =>
    refine .inr (.inr (.inr (.inr (.inr (.inr (.inr (.inr (.inr (.inr (.inr (.inr (.inr (.inr ?_)))))))))))))
    exact .inl ⟨mode, rfl, (Host.Outcome.next.inj h).symm⟩
  | muxStep mode =>
    refine .inr (.inr (.inr (.inr (.inr (.inr (.inr (.inr (.inr (.inr (.inr (.inr (.inr (.inr ?_)))))))))))))
    exact .inr ⟨mode, rfl, (Host.Outcome.next.inj h).symm⟩

/-! ### The input ports -/

/-- What the decoder answers as a legal word breaks no constraint (30_encoding.md R70). -/
theorem decodeFor_broken {n : Nat} {w : Word} {i : Instr} (h : decodeFor n w = .ok i) : i.brokenFor n = none := by
  unfold decodeFor at h
  split at h
  · nomatch h
  · split at h
    · split at h
      · rename_i hb
        exact (Except.ok.inj h) ▸ hb
      · nomatch h
    · nomatch h

theorem fetch_nil {s : State P} (h : s.inputs = []) : s.fetch = .idle := by
  simp [State.fetch, h]

theorem fetch_rst {s : State P} {rest : List Input} (h : s.inputs = .rst :: rest) : s.fetch = .rst rest := by
  simp [State.fetch, h]

theorem fetch_op {s : State P} {w : Word} {rest : List Input} {i : Instr} (h : s.inputs = .word w :: rest)
    (hd : decodeFor P.numButtons w = .ok i) : s.fetch = .op i rest := by
  simp [State.fetch, h, hd]

theorem fetch_reserved {s : State P} {w : Word} {rest : List Input} {why : Reserved} (h : s.inputs = .word w :: rest)
    (hd : decodeFor P.numButtons w = .error why) : s.fetch = .reserved why := by
  simp [State.fetch, h, hd]

/-- Everything a step that answers a next state can have done: it took a presented reset, or a presented legal word
whose operation it performed. -/
theorem stepWith_next_cases {s t : State P} {f : Instr → State P → Host.Outcome (State P) Fault Refusal}
    (h : s.stepWith f = .next t) :
    (∃ rest, s.inputs = .rst :: rest ∧ t = s.takeReset rest) ∨
    ∃ w i rest, s.inputs = .word w :: rest ∧ decodeFor P.numButtons w = .ok i ∧ f i (s.withInputs rest) = .next t := by
  unfold State.stepWith State.fetch at h
  split at h
  · nomatch h
  · next rest hf =>
    split at hf
    · nomatch hf
    · next r hi => cases hf; exact .inl ⟨rest, hi, (Host.Outcome.next.inj h).symm⟩
    · split at hf <;> nomatch hf
  · nomatch h
  · next i rest hf =>
    split at hf
    · nomatch hf
    · nomatch hf
    · next w r hi =>
      split at hf
      · next hd => cases hf; exact .inr ⟨w, i, rest, hi, hd, h⟩
      · nomatch hf

end Sys2Proof.Machine
end

