-- ==== Sys2Proof/Laws/Exec.lean ====
section
/-! SUPPORT. What each operation, the fetch and a sequence of operations can do, said once: later proofs cite these and
do not unfold `exec`, `fetch` or `execAll`. -/

namespace Sys2Proof.Machine

/-! ### The dispatch -/

@[simp] theorem exec_nop (s : State) : exec .nop s = .next (s.drive 0b00) := rfl

theorem exec_tbTick_accepted {s : State} (h : s.tickEn = true) : exec .tbTick s = .next (s.acceptTick.drive 0b00) := by
  simp [exec, execTbTick, h]

theorem exec_tbTick_suspended {s : State} (h : s.tickEn = false) : exec .tbTick s = .next (s.drive 0b00) := by
  simp [exec, execTbTick, h]

/-- A tick is accepted or discarded (42_timebase.md R110, R113). -/
theorem exec_tbTick_cases (s : State) :
    (s.tickEn = true ∧ exec .tbTick s = .next (s.acceptTick.drive 0b00)) ∨
    (s.tickEn = false ∧ exec .tbTick s = .next (s.drive 0b00)) := by
  cases h : s.tickEn with
  | true => exact .inl ⟨rfl, exec_tbTick_accepted h⟩
  | false => exact .inr ⟨rfl, exec_tbTick_suspended h⟩

@[simp] theorem exec_tbEn (b : Bool) (s : State) :
    exec (.tbEn b) s = .next (({ s with tickEn := b } : State).drive 0b00) := rfl

@[simp] theorem exec_edMer (ent : Entity) (s : State) :
    exec (.edMer ent) s = .next ((s.setTime ent (s.time ent).editMeridiem).drive 0b00) := rfl

@[simp] theorem exec_alTen (s : State) :
    exec .alTen s = .next (({ s with almEn := !s.almEn } : State).drive 0b00) := rfl

theorem exec_alSnooze_ringing {s : State} (h : s.almRing = true) :
    exec .alSnooze s =
      .next (({ s with almRing := false, alm := s.alm.defer snoozeOffset } : State).drive 0b00) := by
  simp [exec, execAlSnooze, h]

theorem exec_alSnooze_quiet {s : State} (h : s.almRing = false) : exec .alSnooze s = .next (s.drive 0b00) := by
  simp [exec, execAlSnooze, h]

/-- A snooze acts only while ringing (42_timebase.md R120, R123). -/
theorem exec_alSnooze_cases (s : State) :
    (s.almRing = true ∧ exec .alSnooze s =
      .next (({ s with almRing := false, alm := s.alm.defer snoozeOffset } : State).drive 0b00)) ∨
    (s.almRing = false ∧ exec .alSnooze s = .next (s.drive 0b00)) := by
  cases h : s.almRing with
  | true => exact .inl ⟨rfl, exec_alSnooze_ringing h⟩
  | false => exact .inr ⟨rfl, exec_alSnooze_quiet h⟩

theorem exec_alDismiss_ringing {s : State} (h : s.almRing = true) :
    exec .alDismiss s = .next (({ s with almRing := false, almEn := false } : State).drive 0b00) := by
  simp [exec, execAlDismiss, h]

theorem exec_alDismiss_quiet {s : State} (h : s.almRing = false) : exec .alDismiss s = .next (s.drive 0b00) := by
  simp [exec, execAlDismiss, h]

/-- A dismissal acts only while ringing (42_timebase.md R122, R123). -/
theorem exec_alDismiss_cases (s : State) :
    (s.almRing = true ∧ exec .alDismiss s =
      .next (({ s with almRing := false, almEn := false } : State).drive 0b00)) ∨
    (s.almRing = false ∧ exec .alDismiss s = .next (s.drive 0b00)) := by
  cases h : s.almRing with
  | true => exact .inl ⟨rfl, exec_alDismiss_ringing h⟩
  | false => exact .inr ⟨rfl, exec_alDismiss_quiet h⟩

@[simp] theorem exec_fmt (mode : Mode) (s : State) : exec (.fmt mode) s = .next ((s.formatPass mode).drive 0b00) := rfl

@[simp] theorem exec_muxStep (mode : Mode) (s : State) :
    exec (.muxStep mode) s =
      .next ((s.sequencerStep Config.dwellLen Config.blankLen mode).drive 0b00) := rfl

@[simp] theorem exec_qdecStep (e : Fin 2) (raw : BitVec 2) (s : State) :
    exec (.qdecStep e raw) s =
      .next ((s.setQh e (quadratureShift (s.qh.get e) raw)).drive
        (stepCode (qdecTable (quadratureShift (s.qh.get e) raw)))) := rfl

theorem exec_debSample_of_lt {i : BitVec 4} (h : i.toNat < Config.numButtons) (lvl : BitVec 1) (s : State) :
    exec (.debSample i lvl) s =
      .next ((s.setDeb ⟨i.toNat, h⟩ (debounceShift Config.params (s.deb.get ⟨i.toNat, h⟩) lvl)).drive
        (pressedCode (pressed Config.params (debounceShift Config.params (s.deb.get ⟨i.toNat, h⟩) lvl)))) := dif_pos h

theorem exec_debSample_of_ge {i : BitVec 4} (h : ¬ i.toNat < Config.numButtons) (lvl : BitVec 1) (s : State) :
    exec (.debSample i lvl) s = .refused (.reserved .buttonIndexOutOfRange) := dif_neg h

theorem exec_edMin_of_some {st : BitVec 2} {d : Int} (h : stepVal st = some d) (ent : Entity) (s : State) :
    exec (.edMin ent st) s = .next ((s.setTime ent ((s.time ent).editMinutes d)).drive 0b00) := by
  simp [exec, execEdMin, h]

theorem exec_edHour_of_some {st : BitVec 2} {d : Int} (h : stepVal st = some d) (ent : Entity) (s : State) :
    exec (.edHour ent st) s = .next ((s.setTime ent ((s.time ent).editHours d)).drive 0b00) := by
  simp [exec, execEdHour, h]

theorem exec_edMin_of_none {st : BitVec 2} (h : stepVal st = none) (ent : Entity) (s : State) :
    exec (.edMin ent st) s = .refused (.reserved .reservedStepCode) := by
  simp [exec, execEdMin, h]

theorem exec_edHour_of_none {st : BitVec 2} (h : stepVal st = none) (ent : Entity) (s : State) :
    exec (.edHour ent st) s = .refused (.reserved .reservedStepCode) := by
  simp [exec, execEdHour, h]

theorem exec_debSample_next {i : BitVec 4} {lvl : BitVec 1} {s t : State} (h : exec (.debSample i lvl) s = .next t) :
    ∃ hi : i.toNat < Config.numButtons,
      t = (s.setDeb ⟨i.toNat, hi⟩ (debounceShift Config.params (s.deb.get ⟨i.toNat, hi⟩) lvl)).drive
        (pressedCode (pressed Config.params (debounceShift Config.params (s.deb.get ⟨i.toNat, hi⟩) lvl))) := by
  by_cases hi : i.toNat < Config.numButtons
  · rw [exec_debSample_of_lt hi] at h
    exact ⟨hi, (Host.Outcome.next.inj h).symm⟩
  · rw [exec_debSample_of_ge hi] at h
    nomatch h

theorem exec_edMin_next {ent : Entity} {st : BitVec 2} {s t : State} (h : exec (.edMin ent st) s = .next t) :
    ∃ d, stepVal st = some d ∧ t = (s.setTime ent ((s.time ent).editMinutes d)).drive 0b00 := by
  cases hd : stepVal st with
  | none => rw [exec_edMin_of_none hd] at h; nomatch h
  | some d => rw [exec_edMin_of_some hd] at h; exact ⟨d, rfl, (Host.Outcome.next.inj h).symm⟩

theorem exec_edHour_next {ent : Entity} {st : BitVec 2} {s t : State} (h : exec (.edHour ent st) s = .next t) :
    ∃ d, stepVal st = some d ∧ t = (s.setTime ent ((s.time ent).editHours d)).drive 0b00 := by
  cases hd : stepVal st with
  | none => rw [exec_edHour_of_none hd] at h; nomatch h
  | some d => rw [exec_edHour_of_some hd] at h; exact ⟨d, rfl, (Host.Outcome.next.inj h).symm⟩

theorem exec_next_inj {i : Instr} {s t u : State} (h : exec i s = .next t) (hu : exec i s = .next u) : t = u :=
  Host.Outcome.next.inj (h.symm.trans hu)

/-- Everything an operation that answers a next state can have done: which case it was, and the state it left. -/
theorem exec_next_cases {i : Instr} {s t : State} (h : exec i s = .next t) :
    (i = .nop ∧ t = s.drive 0b00) ∨
    (∃ (k : Fin Config.numButtons) (lvl : BitVec 1), i = .debSample (BitVec.ofNat 4 k.val) lvl ∧
      t = (s.setDeb k (debounceShift Config.params (s.deb.get k) lvl)).drive
        (pressedCode (pressed Config.params (debounceShift Config.params (s.deb.get k) lvl)))) ∨
    (∃ e raw, i = .qdecStep e raw ∧ t = (s.setQh e (quadratureShift (s.qh.get e) raw)).drive
      (stepCode (qdecTable (quadratureShift (s.qh.get e) raw)))) ∨
    (i = .tbTick ∧ s.tickEn = true ∧ t = s.acceptTick.drive 0b00) ∨
    (i = .tbTick ∧ s.tickEn = false ∧ t = s.drive 0b00) ∨
    (∃ b, i = .tbEn b ∧ t = ({ s with tickEn := b } : State).drive 0b00) ∨
    (∃ ent st d, i = .edMin ent st ∧ stepVal st = some d ∧
      t = (s.setTime ent ((s.time ent).editMinutes d)).drive 0b00) ∨
    (∃ ent st d, i = .edHour ent st ∧ stepVal st = some d ∧
      t = (s.setTime ent ((s.time ent).editHours d)).drive 0b00) ∨
    (∃ ent, i = .edMer ent ∧ t = (s.setTime ent (s.time ent).editMeridiem).drive 0b00) ∨
    (i = .alTen ∧ t = ({ s with almEn := !s.almEn } : State).drive 0b00) ∨
    (i = .alSnooze ∧ s.almRing = true ∧
      t = ({ s with almRing := false, alm := s.alm.defer snoozeOffset } : State).drive 0b00) ∨
    (i = .alSnooze ∧ s.almRing = false ∧ t = s.drive 0b00) ∨
    (i = .alDismiss ∧ s.almRing = true ∧ t = ({ s with almRing := false, almEn := false } : State).drive 0b00) ∨
    (i = .alDismiss ∧ s.almRing = false ∧ t = s.drive 0b00) ∨
    (∃ mode, i = .fmt mode ∧ t = (s.formatPass mode).drive 0b00) ∨
    (∃ mode, i = .muxStep mode ∧
      t = (s.sequencerStep Config.dwellLen Config.blankLen mode).drive 0b00) :=
  perform_next_cases ((exec_eq_perform i s).symm.trans h)

/-- An operation that breaks no constraint of the opcode map is performed (30_encoding.md R70). -/
theorem exec_of_broken_none {i : Instr} (h : i.broken = none) (s : State) : ∃ t, exec i s = .next t := by
  cases i with
  | debSample i lvl =>
    have hi : i.toNat < Config.numButtons := by
      by_contra hc
      simp [Instr.broken, Instr.brokenFor, hc] at h
    exact ⟨_, exec_debSample_of_lt hi lvl s⟩
  | edMin ent st =>
    cases hd : stepVal st with
    | none => simp [Instr.broken, Instr.brokenFor, (stepVal_eq_none_iff st).1 hd] at h
    | some d => exact ⟨_, exec_edMin_of_some hd ent s⟩
  | edHour ent st =>
    cases hd : stepVal st with
    | none => simp [Instr.broken, Instr.brokenFor, (stepVal_eq_none_iff st).1 hd] at h
    | some d => exact ⟨_, exec_edHour_of_some hd ent s⟩
  | tbTick => rcases exec_tbTick_cases s with ⟨_, e⟩ | ⟨_, e⟩ <;> exact ⟨_, e⟩
  | alSnooze => rcases exec_alSnooze_cases s with ⟨_, e⟩ | ⟨_, e⟩ <;> exact ⟨_, e⟩
  | alDismiss => rcases exec_alDismiss_cases s with ⟨_, e⟩ | ⟨_, e⟩ <;> exact ⟨_, e⟩
  | _ => exact ⟨_, rfl⟩

/-! ### The step -/

/-- What the decoder answers as a legal word breaks no constraint (30_encoding.md R70). -/
theorem decode_broken {w : Word} {i : Instr} (h : decode w = .ok i) : i.broken = none := decodeFor_broken h

theorem step_op {s : State} {w : Word} {rest : List Input} {i : Instr} (h : s.inputs = .word w :: rest)
    (hd : decode w = .ok i) : step s = exec i (s.withInputs rest) := by
  simp [step, State.stepWith, fetch_op h hd]

theorem step_reserved {s : State} {w : Word} {rest : List Input} {why : Reserved} (h : s.inputs = .word w :: rest)
    (hd : decode w = .error why) : step s = .refused (.reserved why) := by
  simp [step, State.stepWith, fetch_reserved h hd]

theorem step_rst {s : State} {rest : List Input} (h : s.inputs = .rst :: rest) : step s = .next (s.takeReset rest) := by
  simp [step, State.stepWith, fetch_rst h]

theorem step_nil {s : State} (h : s.inputs = []) : step s = .refused .nothingPresented := by
  simp [step, State.stepWith, fetch_nil h]

/-- Everything a step that answers a next state can have done: taken a reset, or performed the operation of a legal
word. -/
theorem step_next_cases {s t : State} (h : step s = .next t) :
    (∃ rest, s.inputs = .rst :: rest ∧ t = s.takeReset rest) ∨
    ∃ w i rest, s.inputs = .word w :: rest ∧ decode w = .ok i ∧ exec i (s.withInputs rest) = .next t :=
  stepWith_next_cases h

/-! ### Runs of the host's interface -/

@[simp] theorem run_zero (s : State) : Host.Core.run Sys2Proof.core 0 s = .next s := rfl

theorem run_succ_of_next {s t : State} (h : step s = .next t) (k : Nat) :
    Host.Core.run Sys2Proof.core (k + 1) s = Host.Core.run Sys2Proof.core k t :=
  (Host.Core.run.eq_2 Sys2Proof.core s k).trans (by rw [show Sys2Proof.core.step s = .next t from h])

theorem run_succ_of_refused {s : State} {r : Refusal} (h : step s = .refused r) (k : Nat) :
    Host.Core.run Sys2Proof.core (k + 1) s = .refused r :=
  (Host.Core.run.eq_2 Sys2Proof.core s k).trans (by rw [show Sys2Proof.core.step s = .refused r from h])

/-! ### Sequences -/

@[simp] theorem execAll_nil (s : State) : execAll [] s = .next s := rfl

theorem execAll_cons_of_next {i : Instr} {s t : State} (h : exec i s = .next t) (is : List Instr) :
    execAll (i :: is) s = execAll is t := by
  simp [execAll, h]

/-- A sequence that completes performed its first operation and then the rest. -/
theorem execAll_cons_next {i : Instr} {is : List Instr} {s u : State} (h : execAll (i :: is) s = .next u) :
    ∃ t, exec i s = .next t ∧ execAll is t = .next u := by
  unfold execAll at h
  cases hi : exec i s with
  | next t => rw [hi] at h; exact ⟨t, rfl, h⟩
  | fault r => rw [hi] at h; nomatch h
  | refused r => rw [hi] at h; nomatch h

/-- Composition over a split sequence (20_memory.md R57). -/
theorem execAll_append_of_next {is js : List Instr} {s t : State} (h : execAll is s = .next t) :
    execAll (is ++ js) s = execAll js t := by
  induction is generalizing s with
  | nil => cases h; rfl
  | cons i is ih =>
    obtain ⟨m, hm, hr⟩ := execAll_cons_next h
    rw [List.cons_append, execAll_cons_of_next hm, ih hr]

theorem execAll_append_next {is js : List Instr} {s u : State} (h : execAll (is ++ js) s = .next u) :
    ∃ t, execAll is s = .next t ∧ execAll js t = .next u := by
  induction is generalizing s with
  | nil => exact ⟨s, rfl, h⟩
  | cons i is ih =>
    obtain ⟨m, hm, hr⟩ := execAll_cons_next (by simpa using h)
    obtain ⟨t, ht, hu⟩ := ih hr
    exact ⟨t, by rw [execAll_cons_of_next hm, ht], hu⟩

end Sys2Proof.Machine
end

