-- ==== Sys2Proof/Laws/Filters.lean ====
section
/-! SUPPORT. What the two input histories do, bit by bit (40_debounce.md R91, R92; 41_quadrature.md R100, R101). -/

namespace Sys2Proof.Machine

theorem debPad_eq : Config.params.debPad = 0xE000#16 := by decide

theorem debMatch_eq : Config.params.debMatch = 0xF000#16 := by decide

/-- Every bit of a debounce history after a sample: the level, the bit below, or the pad (40_debounce.md R91, R92). -/
theorem debounceShift_getLsbD (hist : BitVec Config.debW) (lvl : BitVec 1) (k : Nat) (hk : k < 16) :
    (debounceShift Config.params hist lvl).getLsbD k =
      if k = 0 then lvl.getLsbD 0 else if k < 13 then hist.getLsbD (k - 1) else true := by
  have hones : ones Config.params.debW (Config.params.debW - 1) 0 = BitVec.allOnes 16 := by decide
  have hpad : Config.params.debPad.getLsbD k = decide (13 ≤ k) := by
    rw [debPad_eq]
    interval_cases k <;> rfl
  unfold debounceShift
  rw [hones, BitVec.and_allOnes, BitVec.getLsbD_or, hpad]
  by_cases h0 : k = 0
  · subst h0; simp
  · by_cases h13 : k < 13
    · have : lvl.getLsbD k = false := BitVec.getLsbD_of_ge _ _ (by omega)
      have h13' : ¬ 13 ≤ k := by omega
      simp [h0, h13, hk, this, h13']
      rw [BitVec.getLsbD_eq_getElem]
    · simp [h0, h13]
      omega

/-- A history matches exactly when its 12 newest bits are 0 and the others 1 (40_debounce.md R91, 00_scope.md R9). -/
theorem pressed_iff (hist : BitVec Config.debW) :
    pressed Config.params hist = true ↔ ∀ k < 16, hist.getLsbD k = decide (12 ≤ k) := by
  rw [pressed, beq_iff_eq, debMatch_eq]
  constructor
  · rintro rfl k hk
    interval_cases k <;> rfl
  · intro h
    apply BitVec.eq_of_getLsbD_eq
    intro k hk
    rw [h k hk]
    interval_cases k <;> rfl

theorem pressedCode_eq (p : Bool) : pressedCode p = if p then 0b01 else 0b00 := by cases p <;> decide

/-- An encoder history after a sample is the old sample and the new one (41_quadrature.md R100). -/
theorem quadratureShift_eq (hist : BitVec 4) (raw : BitVec 2) :
    quadratureShift hist raw = hist.extractLsb' 0 2 ++ raw := by
  revert hist raw; decide

/-- The codes the decoder drives for each history (41_quadrature.md R101, 00_scope.md R13). -/
theorem stepCode_qdecTable (q : BitVec 4) :
    stepCode (qdecTable q) =
      if q = 0x1 ∨ q = 0xE then 0b01 else if q = 0x4 ∨ q = 0xB then 0b11 else 0b00 := by
  revert q; decide

/-- The step code of a decoder step reads back as that step (00_scope.md R13). -/
theorem stepVal_stepCode_qdecTable (q : BitVec 4) : stepVal (stepCode (qdecTable q)) = some (qdecTable q) := by
  revert q; decide

end Sys2Proof.Machine
end

