-- ==== Sys2Proof/Laws/PerInstr.lean ====
section
/-! SUPPORT. The per-instruction family EncodeFitsRow: the word of every operation, well-formed or not, finds its row of
the opcode map by OP and matches the row's mask (30_encoding.md R68, R69). -/

namespace Sys2Proof.Laws.EncodeFitsRow

/-- The word of the operation selects a row of the opcode map. -/
def Statement (i : Instr) : Prop :=
  (rowOf (encode i)).any (fun r => encode i &&& r.mask == r.pattern) = true

theorem nop : Statement .nop := by
  unfold Statement; decide

theorem debSample (i : BitVec 4) (lvl : BitVec 1) : Statement (.debSample i lvl) := by
  unfold Statement; revert i lvl; decide

theorem qdecStep (e : Fin 2) (raw : BitVec 2) : Statement (.qdecStep e raw) := by
  unfold Statement; revert e raw; decide

theorem tbTick : Statement .tbTick := by
  unfold Statement; decide

theorem tbEn (b : Bool) : Statement (.tbEn b) := by
  unfold Statement; cases b <;> decide

theorem edMin (ent : Entity) (st : BitVec 2) : Statement (.edMin ent st) := by
  unfold Statement; cases ent <;> revert st <;> decide

theorem edHour (ent : Entity) (st : BitVec 2) : Statement (.edHour ent st) := by
  unfold Statement; cases ent <;> revert st <;> decide

theorem edMer (ent : Entity) : Statement (.edMer ent) := by
  unfold Statement; cases ent <;> decide

theorem alTen : Statement .alTen := by
  unfold Statement; decide

theorem alSnooze : Statement .alSnooze := by
  unfold Statement; decide

theorem alDismiss : Statement .alDismiss := by
  unfold Statement; decide

theorem fmt (mode : Mode) : Statement (.fmt mode) := by
  unfold Statement; cases mode <;> decide

theorem muxStep (mode : Mode) : Statement (.muxStep mode) := by
  unfold Statement; cases mode <;> decide

end Sys2Proof.Laws.EncodeFitsRow
end

