-- ==== Sys2Proof/Laws/Time.lean ====
section
/-! SUPPORT. What the time arithmetic can do, said once in terms of ranges and of the 86 400-place cycle (42_timebase.md
R129, R130). -/

namespace Sys2Proof.Machine

@[simp] theorem Meridiem.flip_flip (mer : Meridiem) : mer.flip.flip = mer := by cases mer <;> rfl

@[simp] theorem Meridiem.flip_ne (mer : Meridiem) : mer.flip ≠ mer := by cases mer <;> decide

theorem Meridiem.eq_flip_of_ne {a b : Meridiem} (h : a ≠ b) : a = b.flip := by
  cases a <;> cases b <;> simp_all [Meridiem.flip]

theorem TimeOfDay.ext_of_fields {t u : TimeOfDay} (hh : t.h = u.h) (hm : t.m = u.m) (hs : t.s = u.s)
    (hmer : t.mer = u.mer) : t = u := by
  cases t; cases u; simp_all

/-! ### The lines of the carry chain, one by one -/

theorem TimeOfDay.carrySeconds_of_eq {t : TimeOfDay} (h : t.s = 60) : t.carrySeconds = { t with s := 0, m := t.m + 1 } :=
  if_pos h

theorem TimeOfDay.carrySeconds_of_ne {t : TimeOfDay} (h : t.s ≠ 60) : t.carrySeconds = t := if_neg h

theorem TimeOfDay.carryMinutes_of_eq {t : TimeOfDay} (h : t.m = 60) : t.carryMinutes = { t with m := 0, h := t.h + 1 } :=
  if_pos h

theorem TimeOfDay.carryMinutes_of_ne {t : TimeOfDay} (h : t.m ≠ 60) : t.carryMinutes = t := if_neg h

theorem TimeOfDay.carryHours_of_eq {t : TimeOfDay} (h : t.h = 13) :
    t.carryHours = { t with h := 1, mer := t.mer.flip } := if_pos h

theorem TimeOfDay.carryHours_of_ne {t : TimeOfDay} (h : t.h ≠ 13) : t.carryHours = t := if_neg h

theorem toNat_succ_of_lt {w : Nat} {x : BitVec w} (h : x.toNat + 1 < 2 ^ w) (hw : 1 < 2 ^ w) :
    (x + 1).toNat = x.toNat + 1 := by
  rw [BitVec.toNat_add, show (1 : BitVec w).toNat = 1 by simpa using Nat.mod_eq_of_lt hw, Nat.mod_eq_of_lt h]

theorem hours_succ {x : BitVec 4} (h : x.toNat ≤ 12) : (x + 1).toNat = x.toNat + 1 :=
  toNat_succ_of_lt (by omega) (by omega)

theorem sixty_succ {x : BitVec 6} (h : x.toNat ≤ 60) : (x + 1).toNat = x.toNat + 1 :=
  toNat_succ_of_lt (by omega) (by omega)

/-- What the minutes and hours lines of the carry chain do to fields at most one step out of range. -/
theorem TimeOfDay.carry_cases (t : TimeOfDay) (hh : t.h.toNat ≤ 12) :
    (t.m.toNat ≠ 60 ∧ t.carryMinutes.carryHours = t) ∨
    (t.m.toNat = 60 ∧ t.h.toNat < 12 ∧ t.carryMinutes.carryHours = { t with m := 0, h := t.h + 1 }) ∨
    (t.m.toNat = 60 ∧ t.h.toNat = 12 ∧ t.carryMinutes.carryHours = { t with m := 0, h := 1, mer := t.mer.flip }) := by
  by_cases h60 : t.m.toNat = 60
  · rw [TimeOfDay.carryMinutes_of_eq (BitVec.eq_of_toNat_eq h60)]
    by_cases h12 : t.h.toNat = 12
    · have h13 : t.h + 1 = 13 := by
        rw [show t.h = 12 from BitVec.eq_of_toNat_eq h12]; rfl
      exact .inr (.inr ⟨h60, h12, TimeOfDay.carryHours_of_eq h13⟩)
    · have h13 : t.h + 1 ≠ 13 := fun hc => by
        have := congrArg BitVec.toNat hc
        rw [hours_succ hh] at this
        exact h12 (by simpa using this)
      exact .inr (.inl ⟨h60, by omega, TimeOfDay.carryHours_of_ne h13⟩)
  · have hm : t.m ≠ 60 := fun hc => h60 (by rw [hc]; rfl)
    have h13 : t.h ≠ 13 := fun hc => by rw [hc] at hh; revert hh; decide
    exact .inl ⟨h60, by rw [TimeOfDay.carryMinutes_of_ne hm, TimeOfDay.carryHours_of_ne h13]⟩

/-- The minutes and hours lines bring such fields into range, at the place the seconds line left. -/
theorem TimeOfDay.carry_spec (t : TimeOfDay) (hh : 1 ≤ t.h.toNat ∧ t.h.toNat ≤ 12) (hm : t.m.toNat ≤ 60)
    (hs : t.s.toNat ≤ 59) :
    t.carryMinutes.carryHours.InRange ∧ t.carryMinutes.carryHours.place = t.place % 86400 := by
  have hadd := hours_succ hh.2
  have z6 : (0 : BitVec 6).toNat = 0 := rfl
  have o4 : (1 : BitVec 4).toNat = 1 := rfl
  rcases t.carry_cases hh.2 with ⟨h1, e⟩ | ⟨h1, h2, e⟩ | ⟨h1, h2, e⟩ <;> rw [e]
  · refine ⟨⟨hh.1, hh.2, by omega, hs⟩, ?_⟩
    cases hmer : t.mer <;> simp only [TimeOfDay.place, hmer] <;> omega
  · refine ⟨⟨by simp only [hadd]; omega, by simp only [hadd]; omega, by simp only [z6]; omega, hs⟩, ?_⟩
    cases hmer : t.mer <;> simp only [TimeOfDay.place, hmer, hadd, z6] <;> omega
  · refine ⟨⟨by simp only [o4]; omega, by simp only [o4]; omega, by simp only [z6]; omega, hs⟩, ?_⟩
    cases hmer : t.mer <;> simp only [TimeOfDay.place, hmer, z6, o4, Meridiem.flip] <;> omega

/-- The tick's seconds line, then the rest of the chain. -/
theorem TimeOfDay.tick_eq_carry (t : TimeOfDay) (hs : t.s.toNat ≤ 59) :
    (t.s.toNat = 59 ∧ t.tick = ({ t with s := 0, m := t.m + 1 } : TimeOfDay).carryMinutes.carryHours) ∨
    (t.s.toNat < 59 ∧ t.tick = ({ t with s := t.s + 1 } : TimeOfDay).carryMinutes.carryHours) := by
  by_cases h59 : t.s.toNat = 59
  · have h60 : ({ t with s := t.s + 1 } : TimeOfDay).s = 60 := by
      rw [show t.s = 59 from BitVec.eq_of_toNat_eq h59]; rfl
    exact .inl ⟨h59, by rw [TimeOfDay.tick, TimeOfDay.carrySeconds_of_eq h60]⟩
  · have h60 : ({ t with s := t.s + 1 } : TimeOfDay).s ≠ 60 := fun hc => by
      have := congrArg BitVec.toNat hc
      rw [sixty_succ (by omega)] at this
      exact h59 (by simpa using this)
    exact .inr ⟨by omega, by rw [TimeOfDay.tick, TimeOfDay.carrySeconds_of_ne h60]⟩

/-- The four things an accepted tick can do to a time in range (42_timebase.md R110). -/
theorem TimeOfDay.tick_cases (t : TimeOfDay) (ht : t.InRange) :
    (t.s.toNat < 59 ∧ t.tick = { t with s := t.s + 1 }) ∨
    (t.s.toNat = 59 ∧ t.m.toNat < 59 ∧ t.tick = { t with s := 0, m := t.m + 1 }) ∨
    (t.s.toNat = 59 ∧ t.m.toNat = 59 ∧ t.h.toNat < 12 ∧ t.tick = { t with s := 0, m := 0, h := t.h + 1 }) ∨
    (t.s.toNat = 59 ∧ t.m.toNat = 59 ∧ t.h.toNat = 12 ∧ t.tick = ⟨1, 0, 0, t.mer.flip⟩) := by
  obtain ⟨-, h12, hm, hs⟩ := ht
  have hadd : (t.m + 1).toNat = t.m.toNat + 1 := sixty_succ (by omega)
  rcases t.tick_eq_carry hs with ⟨h59, e⟩ | ⟨h59, e⟩ <;> rw [e]
  · rcases TimeOfDay.carry_cases { t with s := 0, m := t.m + 1 } h12 with ⟨a, e'⟩ | ⟨a, b, e'⟩ | ⟨a, b, e'⟩ <;>
      simp only [hadd] at a
    · exact .inr (.inl ⟨h59, by omega, e'⟩)
    · exact .inr (.inr (.inl ⟨h59, by omega, b, e'⟩))
    · exact .inr (.inr (.inr ⟨h59, by omega, b, e'⟩))
  · rcases TimeOfDay.carry_cases { t with s := t.s + 1 } h12 with ⟨_, e'⟩ | ⟨a, _⟩ | ⟨a, _⟩
    · exact .inl ⟨h59, e'⟩
    all_goals simp only at a; omega

/-- An accepted tick keeps a time in range and moves it one place on (42_timebase.md R129, R130). -/
theorem TimeOfDay.tick_spec (t : TimeOfDay) (ht : t.InRange) :
    t.tick.InRange ∧ t.tick.place = (t.place + 1) % 86400 := by
  obtain ⟨h1, h12, hm, hs⟩ := ht
  have hadd : (t.m + 1).toNat = t.m.toNat + 1 := sixty_succ (by omega)
  have sadd : (t.s + 1).toNat = t.s.toNat + 1 := sixty_succ (by omega)
  have z6 : (0 : BitVec 6).toNat = 0 := rfl
  rcases t.tick_eq_carry hs with ⟨h59, e⟩ | ⟨h59, e⟩ <;> rw [e]
  · obtain ⟨hr, hp⟩ := TimeOfDay.carry_spec { t with s := 0, m := t.m + 1 } ⟨h1, h12⟩ (by simp only [hadd]; omega)
      (by simp only [z6]; omega)
    refine ⟨hr, hp.trans ?_⟩
    cases hmer : t.mer <;> simp only [TimeOfDay.place, hmer, hadd, h59, z6] <;> omega
  · obtain ⟨hr, hp⟩ := TimeOfDay.carry_spec { t with s := t.s + 1 } ⟨h1, h12⟩ (by simp only; omega)
      (by simp only [sadd]; omega)
    refine ⟨hr, hp.trans ?_⟩
    cases hmer : t.mer <;> simp only [TimeOfDay.place, hmer, sadd] <;> omega

/-- A snooze offset below a minute keeps a time in range and moves it that many places on (42_timebase.md R120). -/
theorem TimeOfDay.defer_spec (t : TimeOfDay) (offset : Nat) (ho : offset ≤ 59) (ht : t.InRange) :
    (t.defer offset).InRange ∧ (t.defer offset).place = (t.place + offset) % 86400 := by
  obtain ⟨h1, h12, hm, hs⟩ := ht
  have hadd : (t.m + 1).toNat = t.m.toNat + 1 := sixty_succ (by omega)
  by_cases hc : 60 ≤ t.s.toNat + offset
  · have hsec : (BitVec.ofNat 6 (t.s.toNat + offset - 60)).toNat = t.s.toNat + offset - 60 := by
      simp [BitVec.toNat_ofNat]; omega
    simp only [TimeOfDay.defer, TimeOfDay.addSeconds, hc, if_true]
    obtain ⟨hr, hp⟩ := TimeOfDay.carry_spec
      { t with s := BitVec.ofNat 6 (t.s.toNat + offset - 60), m := t.m + 1 } ⟨h1, h12⟩ (by simp only [hadd]; omega)
      (by simp only [hsec]; omega)
    refine ⟨hr, hp.trans ?_⟩
    cases hmer : t.mer <;> simp only [TimeOfDay.place, hmer, hadd, hsec] <;> omega
  · have hsec : (BitVec.ofNat 6 (t.s.toNat + offset)).toNat = t.s.toNat + offset := by
      simp [BitVec.toNat_ofNat]; omega
    simp only [TimeOfDay.defer, TimeOfDay.addSeconds, hc, if_false]
    obtain ⟨hr, hp⟩ := TimeOfDay.carry_spec { t with s := BitVec.ofNat 6 (t.s.toNat + offset) } ⟨h1, h12⟩
      (by simp only; omega) (by simp only [hsec]; omega)
    refine ⟨hr, hp.trans ?_⟩
    cases hmer : t.mer <;> simp only [TimeOfDay.place, hmer, hsec] <;> omega

/-- The minutes an edit leaves (42_timebase.md R116). -/
theorem TimeOfDay.editMinutes_m (t : TimeOfDay) (step : Int) :
    ((t.editMinutes step).m.toNat : Int) = ((t.m.toNat : Int) + step) % 60 := by
  simp only [TimeOfDay.editMinutes, BitVec.toNat_ofInt]
  omega

/-- The hours an edit leaves (42_timebase.md R117). -/
theorem TimeOfDay.editHours_h (t : TimeOfDay) (step : Int) :
    ((t.editHours step).h.toNat : Int) = ((t.h.toNat : Int) - 1 + step) % 12 + 1 := by
  simp only [TimeOfDay.editHours, BitVec.toNat_ofInt]
  omega

theorem TimeOfDay.editMinutes_inRange (t : TimeOfDay) (step : Int) (ht : t.InRange) : (t.editMinutes step).InRange := by
  have := t.editMinutes_m step
  exact ⟨ht.1, ht.2.1, by omega, ht.2.2.2⟩

theorem TimeOfDay.editHours_inRange (t : TimeOfDay) (step : Int) (ht : t.InRange) : (t.editHours step).InRange := by
  have := t.editHours_h step
  exact ⟨by omega, by omega, ht.2.2.1, ht.2.2.2⟩

theorem TimeOfDay.editMeridiem_inRange (t : TimeOfDay) (ht : t.InRange) : t.editMeridiem.InRange := ht

end Sys2Proof.Machine
end

