-- ==== Sys2Proof/Tests/Slice0.lean ====
section
/-! SUPPORT. Our own tests: the smoke test of the well-formedness checks, words written out from the opcode map
(30_encoding.md R68, R78), one or two single steps an operation with their expected results from 95_test_vectors.md, and
for every obligation with hypotheses a witness that meets them. -/

namespace Sys2Proof.Tests

open Sys2Proof Sys2Proof.Machine

/-! ### Helpers -/

/-- The reset fields with both kinds of histories at known values: the buttons long released, the encoders at rest in
sample 00. -/
def base : State :=
  { State.reset with deb := Vector.replicate 8 0xFFFF, qh := Vector.replicate 2 0 }

/-- `base` with a clock time. -/
def clkAt (h : BitVec 4) (m s : BitVec 6) (mer : Meridiem) : State := { base with clk := ⟨h, m, s, mer⟩ }

/-- `base` with an alarm time, enabled and ringing. -/
def ringAt (h : BitVec 4) (m s : BitVec 6) (mer : Meridiem) : State :=
  { base with alm := ⟨h, m, s, mer⟩, almEn := true, almRing := true }

/-- The next state of an outcome, if it is one. -/
def nextOf : Host.Outcome State Fault Refusal → Option State
  | .next t => some t
  | _ => none

/-- Why an outcome is refused, if it is. -/
def whyOf : Host.Outcome State Fault Refusal → Option Refusal
  | .refused r => some r
  | _ => none

/-- What one step on the word `w` leaves, at a field. -/
def after {α : Type} (w : Word) (s : State) (field : State → α) : Option α := (nextOf (step (s.present w))).map field

/-! ### Well-formedness (30_encoding.md R68, R72) -/

theorem test_wellFormed_refuses_button_8 : (Instr.debSample 8 0).wellFormed = false := by decide
theorem test_wellFormed_takes_button_7 : (Instr.debSample 7 1).wellFormed = true := by decide
theorem test_wellFormed_refuses_edMin_10 : (Instr.edMin .clk 0b10).wellFormed = false := by decide
theorem test_wellFormed_refuses_edHour_10 : (Instr.edHour .alm 0b10).wellFormed = false := by decide
theorem test_broken_names_the_reason :
    (Instr.debSample 15 0).broken = some .buttonIndexOutOfRange ∧
      (Instr.edHour .clk 0b10).broken = some .reservedStepCode := by decide

/-! ### Decoding: words from the patterns of R68, one or more a row -/

theorem test_decode_nop : decode 0b0000000000000000 = .ok .nop := rfl
theorem test_decode_debSample : decode 0b0001011100000001 = .ok (.debSample 7 1) := rfl
theorem test_decode_qdecStep : decode 0b0010000100000010 = .ok (.qdecStep 1 0b10) := rfl
theorem test_decode_tbTick : decode 0b0011000000000000 = .ok .tbTick := rfl
theorem test_decode_tbEn : decode 0b0100000000000001 = .ok (.tbEn true) := rfl
theorem test_decode_edMin : decode 0b0101000000000011 = .ok (.edMin .clk 0b11) := rfl
theorem test_decode_edHour : decode 0b0110000100000001 = .ok (.edHour .alm 0b01) := rfl
theorem test_decode_edMer : decode 0b0111000100000000 = .ok (.edMer .alm) := rfl
theorem test_decode_alTen : decode 0b1000000000000000 = .ok .alTen := rfl
theorem test_decode_alSnooze : decode 0b1001000000000000 = .ok .alSnooze := rfl
theorem test_decode_alDismiss : decode 0b1010000000000000 = .ok .alDismiss := rfl
theorem test_decode_fmt : decode 0b1011000000000010 = .ok (.fmt .setAlarm) := rfl
theorem test_decode_muxStep : decode 0b1100000000000011 = .ok (.muxStep .toggleFormat) := rfl

/-- The refusals of 95_test_vectors.md D-9, D-11, Q-10, Q-11, F-8 and its table of refused words. -/
theorem test_decode_refuses :
    decode 0xD000 = .error .reservedOpcode ∧ decode 0xE123 = .error .reservedOpcode ∧
    decode 0xFFFF = .error .reservedOpcode ∧ decode 0x1800 = .error .buttonIndexOutOfRange ∧
    decode 0x1F00 = .error .buttonIndexOutOfRange ∧ decode 0x1002 = .error .reservedFieldBits ∧
    decode 0x2004 = .error .reservedFieldBits ∧ decode 0x2200 = .error .reservedFieldBits ∧
    decode 0x3001 = .error .reservedFieldBits ∧ decode 0x5010 = .error .reservedFieldBits ∧
    decode 0x5201 = .error .reservedFieldBits ∧ decode 0x5002 = .error .reservedStepCode ∧
    decode 0x6002 = .error .reservedStepCode ∧ decode 0xB100 = .error .reservedFieldBits ∧
    decode 0xC800 = .error .reservedFieldBits :=
  ⟨rfl, rfl, rfl, rfl, rfl, rfl, rfl, rfl, rfl, rfl, rfl, rfl, rfl, rfl, rfl⟩

/-- A word whose bit 7 is set and whose index is out of range is refused for its bits: the mask comes first (R70). -/
theorem test_decode_checks_mask_first : decode 0x1880 = .error .reservedFieldBits := rfl

theorem test_decodeTableWord :
    decodeTableWord 16 0x6103 = some (.edHour .alm 0b11) ∧ decodeTableWord 16 0xD000 = none := by decide

/-- The spellings of 30_encoding.md R78. -/
theorem test_hexText : hexText (encode (.edMin .clk 0b11)) = "0x5003" ∧ hexText 0xB002 = "0xB002" := by decide

theorem test_toBytes_high_byte_first : Word.toBytes 0x5003 = [0x50, 0x03] := by decide

/-! ### Assembler text (30_encoding.md R76, R77) -/

theorem test_assembles_operation : assembleLine "ED.MIN CLK, -1 ; one back" = some [.edMin .clk 0b11] := by decide
theorem test_assembles_pseudo : assembleLine "TICKS 3" = some [.tbTick, .tbTick, .tbTick] := by decide
theorem test_assembles_no_unknown_line : assembleLine "ED.MIN CLK, +2" = none := by decide

/-! ### The first step after reset -/

/-- With nothing presented there is no step (30_encoding.md R65). -/
theorem test_reset_waits : whyOf (step State.reset) = some .nothingPresented ∧ resPort (step State.reset) = none :=
  ⟨rfl, rfl⟩

/-- From reset the tick gives 12:00:01 AM (42_timebase.md R110). -/
theorem test_reset_runs_tick :
    (nextOf (step (State.reset.withFetchWord 16 0x3000))).map (·.clk) = some ⟨12, 0, 1, .am⟩ := rfl

theorem test_reset_runs_muxStep : ∃ t, step (State.reset.withFetchWord 16 0xC000) = .next t ∧ t.inputs = [] := by
  refine ⟨_, rfl, ?_⟩
  simp [State.drive, State.sequencerStep, State.withInputs, State.withFetchWord, State.present, State.reset,
    State.powerUp, State.advance]
  split <;> [rfl; (split <;> rfl)]

theorem test_reset_refuses_reserved : whyOf (step (State.reset.withFetchWord 16 0xFFFF)) =
    some (.reserved .reservedOpcode) := rfl

/-- `rst` brings back the reset values (70_reset_and_hazards.md R180). -/
theorem test_rst : (nextOf (step { clkAt 3 4 5 .pm with inputs := [.rst] })).map (fun t => (t.clk, t.tickEn)) =
    some (⟨12, 0, 0, .am⟩, true) := rfl

/-! ### NOP -/

/-- T-34. -/
theorem test_nop : nextOf (step ((clkAt 3 4 5 .pm).present 0x0000)) = some { clkAt 3 4 5 .pm with res := some 0 } := rfl

/-! ### Debounce -/

/-- D-1. -/
theorem test_debSample_press : after 0x1000 { base with deb := base.deb.set 0 0xF800 } (fun t => (t.deb.get 0, t.res)) =
    some (0xF000, some 0b01) := by decide

/-- D-7: the pad is forced on the first sample; D-8: the other buttons stay as they are. -/
theorem test_debSample_pad : after 0x1101 { base with deb := Vector.replicate 8 0 }
    (fun t => (t.deb.get 1, t.deb.get 0, t.res)) = some (0xE001, 0x0000, some 0b00) := by decide

/-! ### Quadrature -/

/-- Q-1. -/
theorem test_qdecStep_forward : after 0x2002 { base with qh := base.qh.set 0 0b1011 } (fun t => (t.qh.get 0, t.res)) =
    some (0b1110, some 0b01) := by decide

/-- The second word of the backward half-cycle of W3, on encoder 1: -1 (Q-8: encoder 0 stays as it is). -/
theorem test_qdecStep_backward : after 0x2103 { base with qh := base.qh.set 1 0b0010 }
    (fun t => (t.qh.get 1, t.qh.get 0, t.res)) = some (0b1011, 0, some 0b11) := by decide

/-! ### Time Base -/

/-- T-1: no meridiem flip at 11 to 12. -/
theorem test_tbTick_eleven_to_twelve : after 0x3000 (clkAt 11 59 59 .am) (fun t => (t.clk, t.blink)) =
    some (⟨12, 0, 0, .am⟩, true) := by decide

/-- T-7 with the flip of T-2: the comparison sees the time after the carry. -/
theorem test_tbTick_rings : after 0x3000 { clkAt 12 59 59 .am with alm := ⟨1, 0, 0, .pm⟩, almEn := true }
    (fun t => (t.clk, t.almRing)) = some (⟨1, 0, 0, .pm⟩, true) := by decide

/-- T-32, T-33. -/
theorem test_tbEn : after 0x4000 base (·.tickEn) = some false ∧
    after 0x4001 { base with tickEn := false } (·.tickEn) = some true := by decide

/-! ### Field edits -/

/-- T-13: no carry into the hours. -/
theorem test_edMin_no_carry : after 0x5001 (clkAt 4 59 30 .am) (·.clk) = some ⟨4, 0, 30, .am⟩ := by decide

/-- T-12. -/
theorem test_edMin_no_borrow : after 0x5003 base (·.clk) = some ⟨12, 59, 0, .am⟩ := by decide

/-- T-17: no flip at 12 to 1. -/
theorem test_edHour_wraps_up : after 0x6001 base (·.clk) = some ⟨1, 0, 0, .am⟩ := by decide

/-- T-19. -/
theorem test_edHour_wraps_down : after 0x6103 { base with alm := ⟨1, 0, 0, .am⟩ } (fun t => (t.alm, t.clk)) =
    some (⟨12, 0, 0, .am⟩, ⟨12, 0, 0, .am⟩) := by decide

/-- T-20. -/
theorem test_edMer : after 0x7000 base (·.clk) = some ⟨12, 0, 0, .pm⟩ := by decide

/-! ### Alarm -/

/-- T-24. -/
theorem test_alTen_keeps_ringing : after 0x8000 (ringAt 7 30 0 .am) (fun t => (t.almEn, t.almRing)) =
    some (false, true) := by decide

/-- T-26. -/
theorem test_alSnooze_carries : after 0x9000 (ringAt 12 59 55 .am) (fun t => (t.alm, t.almRing, t.almEn)) =
    some (⟨1, 0, 5, .pm⟩, false, true) := by decide

/-- T-29. -/
theorem test_alSnooze_not_ringing : after 0x9000 { ringAt 7 30 0 .am with almRing := false } (·.alm) =
    some ⟨7, 30, 0, .am⟩ := by decide

/-- W8. -/
theorem test_alDismiss : after 0xA000 (ringAt 7 30 0 .am) (fun t => (t.almRing, t.almEn, t.alm)) =
    some (false, false, ⟨7, 30, 0, .am⟩) := by decide

/-- T-31. -/
theorem test_alDismiss_not_ringing : after 0xA000 { ringAt 7 30 0 .am with almRing := false } (·.almEn) =
    some true := by decide

/-! ### Display -/

/-- W4. -/
theorem test_fmt_normal : after 0xB000 { clkAt 10 47 3 .pm with almEn := true, colonOn := true, blink := true }
    (fun t => (t.cells, t.colonOn, t.blink)) = some (#v[0x87, 0x66, 0x00, 0x3F, 0x86], false, false) := by decide

/-- F-4. -/
theorem test_fmt_setAlarm : after 0xB002 { clkAt 9 5 0 .am with alm := ⟨7, 30, 0, .pm⟩ } (·.cells) =
    some #v[0xBF, 0x4F, 0x00, 0x07, 0x3F] := by decide

/-- The 15th word of the sequencer trace, DWELL_LEN = 2 and BLANK_LEN = 1: the wrap formats. -/
theorem test_sequencer_wrap_formats :
    let t := ({ clkAt 7 30 0 .am with seqIdx := 4, seqPh := .blank } : State).sequencerStep 2 1 .normal
    (t.seqIdx, t.seqPh, t.seqCnt, t.cells) = (0, .dwell, 0, #v[0x3F, 0x4F, 0x00, 0x07, 0x3F]) := by decide

/-- S-2, its first word: DWELL_LEN = 1 and BLANK_LEN = 0 go straight to the next cell, without a format pass. -/
theorem test_sequencer_without_blanking :
    let t := base.sequencerStep 1 0 .normal
    (t.seqIdx, t.seqPh, t.seqCnt, t.cells) = (1, .dwell, 0, base.cells) := by decide

/-- S-3 and S-4: the segment pins, and the select held during blanking. -/
theorem test_outputs :
    segPins true ({ base with cells := #v[0x3F, 0x3F, 0x03, 0x5B, 0x06] } : State).seg = 0xC0 ∧
    ({ base with seqIdx := 2, seqPh := .blank, cells := Vector.replicate 5 0xFF } : State).seg = 0x00 ∧
    ({ base with seqIdx := 2, seqPh := .blank } : State).selOut = 2 := by decide

/-! ### Other parameters (00_scope.md R8): three buttons, 8-bit histories, DEB_N = 4, DEB_M = 2 -/

/-- Legal parameters that are not this hardware's. -/
abbrev small : Params where
  numButtons := 3
  debW := 8
  debN := 4
  debM := 2
  debReset := fun _ _ => 0xFF
  qdecTable := fun q => if q = 0x7 ∨ q = 0x8 then 1 else if q = 0xD ∨ q = 0x2 then -1 else 0
  qdecReset := fun _ _ => 0
  snoozeOffset := 59
  colonGlyph := 0x80
  segActiveLow := true
  dwellLen := 1
  blankLen := 0

/-- The table of `small` is the channel-swapped twin of R101. -/
theorem test_small_legal : small.Legal :=
  ⟨by decide, by decide, by decide, by decide, ⟨1, by decide⟩, by decide, by decide⟩

/-- R9 worked out by hand: ones(7, 6) and ones(7, 4). -/
theorem test_small_debounce_constants : small.debPad = 0xC0 ∧ small.debMatch = 0xF0 := by decide

/-- The reset state of `small`. -/
abbrev smallReset : State small := .powerUp 0 []

/-- The fourth low sample after two high ones is a press (R91). -/
theorem test_small_press :
    (match stepOf (({ smallReset with deb := Vector.replicate 3 0xF8 } : State small).present 0x1200) with
      | .next t => (t.deb.get 2, t.res)
      | _ => ((0 : BitVec 8), none)) = (0xF0, some 0b01) := by decide

theorem test_small_button_3_is_refused : decodeFor 3 0x1300 = .error .buttonIndexOutOfRange := rfl

/-- The last sample of the twin's forward half-cycle 00, 01, 11 is the one that counts. -/
theorem test_small_twin :
    (match perform (.qdecStep 0 0b11) ({ smallReset with qh := Vector.replicate 2 0b0001 } : State small) with
      | .next t => t.res
      | _ => none) = some 0b01 := by decide

theorem test_small_pseudo : assembleLine "SAMPLE.CYCLE 0, 1, 0, 0b01, 0b10" small =
    some [.debSample 0 0, .debSample 1 1, .debSample 2 0, .qdecStep 0 1, .qdecStep 1 2] := by decide

/-! ### Witnesses: for every obligation with hypotheses, values that meet them together -/

theorem witness_DecodeOfEncode : (Instr.debSample 7 1).wellFormed = true ∧ (Instr.edMin .alm 0b11).wellFormed = true := by
  decide

theorem witness_EncodeOfDecode : decode 0x1701 = .ok (.debSample 7 1) ∧ decode 0xC003 = .ok (.muxStep .toggleFormat) :=
  ⟨rfl, rfl⟩

/-- Each of the four reasons, at a boundary of its words. -/
theorem witness_ReservedWordsAreRefusedByReason :
    decode 0xD000 = .error .reservedOpcode ∧ decode 0x0001 = .error .reservedFieldBits ∧
    decode 0x1800 = .error .buttonIndexOutOfRange ∧ decode 0x5002 = .error .reservedStepCode := ⟨rfl, rfl, rfl, rfl⟩

theorem witness_OpcodeMapRowsDoNotOverlap : ∃ r ∈ opcodeMap, (0x6103 : Word) &&& r.mask = r.pattern :=
  ⟨opcodeMap[6], List.getElem_mem _, rfl⟩

theorem witness_AssemblyOfAnOperationReadsBack : (Instr.debSample 7 1).wellFormed = true := by decide

theorem witness_StepRunsTheDecodedWord :
    (base.present 0x3000).inputs = .word 0x3000 :: [] ∧ decode 0x3000 = .ok .tbTick := ⟨rfl, rfl⟩

theorem witness_StepRefusesAReservedWord :
    (base.present 0xD000).inputs = .word 0xD000 :: [] ∧ decode 0xD000 = .error .reservedOpcode := ⟨rfl, rfl⟩

theorem witness_EveryStepTakesOnePresentedEvent : State.reset.inputs = [] ∧
    (∃ t, step (base.present 0x3000) = .next t) ∧ ∃ t, step { base with inputs := [.rst] } = .next t :=
  ⟨rfl, ⟨_, rfl⟩, _, rfl⟩

theorem witness_StepTakesReset : ({ base with inputs := [.rst, .word 0x3000] } : State).inputs =
    .rst :: [.word 0x3000] := rfl

theorem witness_RunsComposeTheOperations : ∀ w ∈ ([0x3000, 0xC000] : List Word), Legal w := by
  intro w hw
  fin_cases hw
  exacts [⟨.tbTick, rfl⟩, ⟨.muxStep .normal, rfl⟩]

theorem witness_RefusalMarksTheWholeRun : (∀ w ∈ ([0x3000] : List Word), Legal w) ∧
    decode 0xD000 = .error .reservedOpcode ∧ [(0x3000 : Word)].length < 2 :=
  ⟨fun w hw => ⟨.tbTick, by rw [List.mem_singleton.mp hw]; rfl⟩, rfl, by decide⟩

/-- At the upper boundary 12:59:59, here and with other parameters. -/
theorem witness_StepKeepsTimesInRange :
    (((clkAt 12 59 59 .am).present 0x3000).TimesInRange ∧ ∃ t, step ((clkAt 12 59 59 .am).present 0x3000) = .next t) ∧
    small.Legal ∧ ((State.powerUp 0 [.word 0x3000] : State small)).TimesInRange ∧
      ∃ t, stepOf (State.powerUp 0 [.word 0x3000] : State small) = .next t :=
  ⟨⟨by unfold State.TimesInRange TimeOfDay.InRange; decide, _, rfl⟩, test_small_legal,
    by unfold State.TimesInRange TimeOfDay.InRange; decide, _, rfl⟩

/-- At the last count of a lit phase, here and with other parameters. -/
theorem witness_StepKeepsSequencerInRange :
    ((({ base with seqCnt := Config.dwellExtra } : State).present 0xC000).SequencerInRange ∧
      ∃ t, step (({ base with seqCnt := Config.dwellExtra } : State).present 0xC000) = .next t) ∧
    small.Legal ∧ (State.powerUp 0 [.word 0xC000] : State small).SequencerInRange ∧
      ∃ t, stepOf (State.powerUp 0 [.word 0xC000] : State small) = .next t :=
  ⟨⟨Nat.lt_succ_self _, _, rfl⟩, test_small_legal, Nat.zero_lt_one, _, rfl⟩

theorem witness_StepKeepsCellsFromOnePass :
    ((base.present 0xB000).TimesInRange ∧ (base.present 0xB000).CellsFromOnePass ∧
      ∃ t, step (base.present 0xB000) = .next t) ∧
    small.Legal ∧ (State.powerUp 0 [.word 0xB000] : State small).TimesInRange ∧
      (State.powerUp 0 [.word 0xB000] : State small).CellsFromOnePass ∧
      ∃ t, stepOf (State.powerUp 0 [.word 0xB000] : State small) = .next t :=
  ⟨⟨by unfold State.TimesInRange TimeOfDay.InRange; decide, .inl rfl, _, rfl⟩, test_small_legal,
    by unfold State.TimesInRange TimeOfDay.InRange; decide, .inl rfl, _, rfl⟩

theorem witness_ResetStateIsGood : small.Legal := test_small_legal

theorem witness_DebSampleShiftsAndReports : (7 : BitVec 4).toNat < 8 := by decide

theorem witness_ExcludedOperandsAreRefused : 8 ≤ (8 : BitVec 4).toNat := by decide

theorem witness_PressIsLowRunAfterSettledHigh :
    (7 : BitVec 4).toNat < 8 ∧ [(1 : BitVec 1)].length = debM ∧ (List.replicate 12 (0 : BitVec 1)).length = debN := by
  decide

/-- A press, then one high sample and twelve low ones: the least number that reports again. -/
theorem witness_OneEventPerPress : ∃ t u, exec (.debSample 0 0) { base with deb := base.deb.set 0 0xF800 } = .next t ∧
    t.res = some 0b01 ∧ (1 :: List.replicate 12 (0 : BitVec 1)) ≠ [] ∧
    execAll ((1 :: List.replicate 12 0).map (.debSample 0)) t = .next u ∧ u.res = some 0b01 :=
  ⟨_, _, rfl, by decide, by decide, rfl, by decide⟩

theorem witness_QdecStepShiftsAndDecodes : (0 : Fin 2) ≠ 1 := by decide

/-- The four half-cycles, their start samples on encoder 1. -/
theorem witness_HalfCyclesReportOneStep :
    let quads : List (BitVec 2 × BitVec 2 × BitVec 2 × BitVec 2 × BitVec 2) :=
      [(0b00, 0b01, 0b11, 0b01, 0b00), (0b11, 0b10, 0b00, 0b01, 0b00), (0b00, 0b10, 0b11, 0b00, 0b11),
        (0b11, 0b01, 0b00, 0b00, 0b11)]
    (0b00, 0b01, 0b11, 0b01, 0b00) ∈ quads ∧ (0b11, 0b10, 0b00, 0b01, 0b00) ∈ quads ∧
      (0b00, 0b10, 0b11, 0b00, 0b11) ∈ quads ∧ (0b11, 0b01, 0b00, 0b00, 0b11) ∈ quads ∧
      (base.qh.get 1).extractLsb' 0 2 = 0b00 ∧
      (({ base with qh := Vector.replicate 2 0b0011 } : State).qh.get 1).extractLsb' 0 2 = 0b11 :=
  ⟨by simp, by simp, by simp, by simp, by decide, by decide⟩

theorem witness_GlitchesCancel : (base.qh.get 0).extractLsb' 0 2 = 0b00 ∧
    ∀ g ∈ ([0b01, 0b10, 0b01] : List (BitVec 2)), g ^^^ 0b00 = 0b01 ∨ g ^^^ 0b00 = 0b10 := by decide

theorem witness_OnlyTheFirstStepSeesTheDraw :
    (∃ t, execAll (([0b01, 0b11] : List (BitVec 2)).map (.qdecStep 0)) base = .next t) ∧
      ∃ t, execAll (([0b01, 0b11] : List (BitVec 2)).map (.qdecStep 0)) { base with qh := Vector.replicate 2 3 } =
        .next t := ⟨⟨_, rfl⟩, _, rfl⟩

/-- Each of the four carry cases, at its boundary. -/
theorem witness_AcceptedTickCountsOneSecond : ∀ s ∈ [clkAt 1 0 58 .am, clkAt 1 58 59 .am, clkAt 11 59 59 .am,
    clkAt 12 59 59 .am], s.tickEn = true ∧ s.clk.InRange := by
  unfold TimeOfDay.InRange; decide

theorem witness_SuspendedTickIsDiscarded : ({ base with tickEn := false } : State).tickEn = false := rfl

theorem witness_TicksRunThroughOneCycle :
    (clkAt 12 59 59 .am).tickEn = true ∧ (clkAt 12 59 59 .am).clk.InRange ∧ (⟨1, 0, 0, .pm⟩ : TimeOfDay).InRange := by
  unfold TimeOfDay.InRange; decide

theorem witness_CountingLawsOfTheTick :
    (clkAt 12 59 59 .am).tickEn = true ∧ (clkAt 12 59 59 .am).clk.InRange ∧ (clkAt 12 59 59 .am).clk.h = 12 := by
  unfold TimeOfDay.InRange; decide

theorem witness_EdMinStepsTheMinutes : ((0b11, -1) : BitVec 2 × Int) ∈ [(0b00, 0), (0b01, 1), (0b11, -1)] := by decide

theorem witness_EdHourStepsTheHours : ((0b01, 1) : BitVec 2 × Int) ∈ [(0b00, 0), (0b01, 1), (0b11, -1)] := by decide

theorem witness_AlSnoozeDefersTheAlarm :
    ((ringAt 12 59 50 .am).almRing = true ∧ (ringAt 12 59 50 .am).alm.InRange) ∧ base.almRing = false := by
  unfold TimeOfDay.InRange; decide

theorem witness_PlaceNamesTheTime :
    (⟨12, 59, 59, .am⟩ : TimeOfDay).InRange ∧ (⟨12, 59, 59, .am⟩ : TimeOfDay).place = 86399 :=
  ⟨by unfold TimeOfDay.InRange; decide, by simp [TimeOfDay.place]⟩

theorem witness_AlDismissDisarms : (ringAt 7 30 0 .am).almRing = true ∧ base.almRing = false := by decide

/-- Snoozed three seconds after ringing: the tick that rings again, and the one before. -/
theorem witness_SnoozeRingsOnceMore :
    let s := { ringAt 7 30 0 .am with clk := ⟨7, 30, 3, .am⟩ }
    s.tickEn = true ∧ s.almEn = true ∧ s.almRing = true ∧ s.clk.InRange ∧ s.alm.InRange ∧
      s.clk.place = (s.alm.place + 3) % 86400 ∧ 3 < 10 ∧ 7 ≤ 10 - 3 ∧ 6 ≤ 10 - 3 := by
  unfold TimeOfDay.InRange; decide

/-- A tick that starts the ringing, an edit onto the alarm time that does not (T-22), and a tick that finds it ringing. -/
theorem witness_OnlyATickStartsRinging :
    (∃ t, exec .tbTick { clkAt 7 29 59 .am with alm := ⟨7, 30, 0, .am⟩, almEn := true } = .next t ∧ t.almRing = true) ∧
    (∃ t, exec (.edMin .clk 0b01) { clkAt 7 29 0 .am with alm := ⟨7, 30, 0, .am⟩, almEn := true } = .next t ∧
      t.clk = ⟨7, 30, 0, .am⟩ ∧ t.almRing = false) ∧
    ∃ t, exec .tbTick (ringAt 7 30 0 .am) = .next t ∧ t.almRing = true :=
  ⟨⟨_, rfl, by decide⟩, ⟨_, rfl, by decide, by decide⟩, _, rfl, by decide⟩

theorem witness_OnlySnoozeOrDismissStopsRinging :
    (ringAt 7 30 0 .am).almRing = true ∧
      (∃ t, exec .alSnooze (ringAt 7 30 0 .am) = .next t ∧ t.almRing = false) ∧
      ∃ t, exec .alDismiss (ringAt 7 30 0 .am) = .next t ∧ t.almRing = false :=
  ⟨rfl, ⟨_, rfl, rfl⟩, _, rfl, rfl⟩

theorem witness_IndicatorBitsShowPmAndAlarm : ∃ t, exec (.fmt .setAlarm) (ringAt 7 30 0 .pm) = .next t := ⟨_, rfl⟩

/-- Two states that differ in the seconds, the other entity and the cells alone. -/
theorem witness_FormatPassIsPure :
    let s := clkAt 9 5 1 .pm
    let s' := { clkAt 9 5 59 .pm with alm := ⟨1, 2, 3, .am⟩, cells := Vector.replicate 5 0xFF }
    s.clk.m = s'.clk.m ∧ s.clk.h = s'.clk.h ∧ s.clk.mer = s'.clk.mer ∧ s.almEn = s'.almEn ∧ s.colonOn = s'.colonOn ∧
      s.blink = s'.blink ∧ (∃ t, exec (.fmt .normal) s = .next t) ∧ ∃ t, exec (.fmt .normal) s' = .next t :=
  ⟨rfl, rfl, rfl, rfl, rfl, rfl, ⟨_, rfl⟩, _, rfl⟩

/-- The clauses at their boundaries, for whatever lengths: the last lit count ends the phase, one before it does not
(where there is one), and the same of the blanking phase. -/
theorem witness_MuxStepAdvancesTheSequencer :
    (Config.dwellLen ≤ Config.dwellExtra + 1) ∧ (1 < Config.dwellLen → 0 + 1 < Config.dwellLen) ∧
      (0 < Config.blankLen ∨ Config.blankLen = 0) ∧ (1 < Config.blankLen → 0 + 1 < Config.blankLen) ∧
      Config.blankLen ≤ Config.blankLen + 1 :=
  ⟨Nat.le_refl _, id, by omega, id, Nat.le_succ _⟩

theorem witness_RenderCycleStrobesEachCellAlike : base.seqIdx = 0 ∧ base.seqPh = .dwell ∧ base.seqCnt = 0 ∧
    0 < 5 * (Config.dwellLen + Config.blankLen) := ⟨rfl, rfl, rfl, by unfold Config.dwellLen; omega⟩

theorem witness_SegmentAndSelectOutputs :
    base.seqPh = .dwell ∧ ({ base with seqPh := .blank } : State).seqPh = .blank ∧
      (Config.segActiveLow = true ∨ Config.segActiveLow = false) := ⟨rfl, rfl, by cases Config.segActiveLow <;> decide⟩

theorem witness_ColonTogglesOncePerConsumedBlink : base.tickEn = true ∧
    ∃ t, execAll (List.replicate 1 .tbTick ++ .fmt .normal :: [Mode.setAlarm].map .fmt) base = .next t :=
  ⟨rfl, _, rfl⟩

/-- Each field but the sequencer's changes somewhere; the sequencer leaves its phase from the last blanking count. -/
theorem witness_EveryFieldHasItsWriters :
    (∃ t, exec .tbTick base = .next t ∧ t.clk ≠ base.clk ∧ t.blink ≠ base.blink) ∧
    (∃ t, exec .alSnooze (ringAt 7 30 0 .am) = .next t ∧ t.alm ≠ (ringAt 7 30 0 .am).alm ∧
      t.almRing ≠ (ringAt 7 30 0 .am).almRing) ∧
    (∃ t, exec .alTen base = .next t ∧ t.almEn ≠ base.almEn) ∧
    (∃ t, exec (.tbEn false) base = .next t ∧ t.tickEn ≠ base.tickEn) ∧
    (∃ t, exec (.fmt .normal) { base with blink := true } = .next t ∧ t.colonOn ≠ base.colonOn ∧
      t.cells ≠ base.cells) ∧
    (∃ t, exec (.debSample 7 0) base = .next t ∧ t.deb.get 7 ≠ base.deb.get 7) ∧
    (∃ t, exec (.qdecStep 1 0b01) base = .next t ∧ t.qh.get 1 ≠ base.qh.get 1) ∧
    ∃ t, exec (.muxStep .normal) { base with seqPh := .blank, seqCnt := Config.blankLen } = .next t ∧ t.seqIdx ≠ 0 := by
  refine ⟨⟨_, rfl, by decide, by decide⟩, ⟨_, rfl, by decide, by decide⟩, ⟨_, rfl, by decide⟩, ⟨_, rfl, by decide⟩,
    ⟨_, rfl, by decide, by decide⟩, ⟨_, rfl, by decide⟩, ⟨_, rfl, by decide⟩, _, rfl, ?_⟩
  simp [State.sequencerStep, State.advance, base, State.reset, State.powerUp, State.drive]

theorem witness_OnlyTicksAndSnoozesWriteSeconds :
    (∃ t, exec .tbTick base = .next t ∧ t.clk.s ≠ base.clk.s) ∧
    ∃ t, exec .alSnooze (ringAt 7 30 0 .am) = .next t ∧ t.alm.s ≠ (ringAt 7 30 0 .am).alm.s :=
  ⟨⟨_, rfl, by decide⟩, _, rfl, by decide⟩

theorem witness_HistoriesAreHidden :
    (∀ k lvl, Instr.tbTick ≠ .debSample k lvl) ∧ (∀ e raw, Instr.tbTick ≠ .qdecStep e raw) ∧
      ∃ t, exec .tbTick base = .next t := ⟨by simp, by simp, _, rfl⟩

/-- Two buttons; one button and an encoder; an encoder and a tick. -/
theorem witness_SamplesCommuteWithOtherOperations :
    (Instr.debSample 0 1).wellFormed = true ∧ (Instr.debSample 7 0).wellFormed = true ∧
      (∀ lvl', Instr.debSample 7 0 ≠ .debSample 0 lvl') ∧ ∀ raw', Instr.tbTick ≠ .qdecStep 1 raw' := by decide

theorem witness_TickAndEditDoNotCommute : (clkAt 12 59 59 .am).tickEn = true ∧
    (clkAt 12 59 59 .am).clk = ⟨12, 59, 59, .am⟩ := ⟨rfl, rfl⟩

/-- One sample, a tick before it and a format pass after. -/
theorem witness_InterleavingKeepsTheHistories :
    (∀ i ∈ [Instr.debSample 0 0], Source.sampling.delivers i = true) ∧
    (∀ i ∈ [Instr.tbTick, .fmt .normal], Source.sampling.delivers i = false) ∧
    Interleaves [[Instr.debSample 0 0], [Instr.tbTick, .fmt .normal]] [.tbTick, .debSample 0 0, .fmt .normal] ∧
    (∃ t, execAll [.tbTick, .debSample 0 0, .fmt .normal] base = .next t) ∧
    ∃ u, execAll [.debSample 0 0] base = .next u :=
  ⟨by decide, by decide,
    .take [[Instr.debSample 0 0]] [] _ _ _ (.take [] [[Instr.fmt .normal]] _ _ _
      (.take [[]] [] _ _ _ (.done _ (by decide)))), ⟨_, rfl⟩, _, rfl⟩

theorem witness_IdempotentOperations : base.almRing = false ∧ ∃ t, exec .alSnooze base = .next t := ⟨rfl, _, rfl⟩

theorem witness_ResultPortCarriesOnlySampleResults :
    (∃ t, exec .tbTick base = .next t) ∧ (∃ t, exec (.debSample 7 0) base = .next t) ∧
      ∃ t, exec (.qdecStep 1 0b01) base = .next t := ⟨⟨_, rfl⟩, ⟨_, rfl⟩, _, rfl⟩

theorem witness_DecoderResultFeedsTheEdits : ∃ t, exec (.qdecStep 0 0b01) base = .next t ∧ t.res = some 0b01 :=
  ⟨_, rfl, by decide⟩

/-- At the least legal F_MUX. -/
theorem witness_LegalRatesRefreshAtSixtyHertz : base.AtCycleStart ∧
    (⟨1, 1000, 60 * 5 * ((Config.params.dwellLen : ℚ) + Config.params.blankLen)⟩ : Rates).Legal :=
  ⟨⟨rfl, rfl, rfl⟩, by norm_num, by norm_num, le_refl _⟩

end Sys2Proof.Tests
end

section
/-! The alarm comparison of the tick, TB.EN, ED.MER and AL.DISMISS (42_timebase.md R112, R114, R118, R122). -/

namespace Sys2Proof.Machine

variable {P : Params}

/-! ### The result port and an entity's fields, written one after the other -/

theorem State.drive_eq (s : State P) (r : BitVec 2) : s.drive r = { s with res := some r } := rfl

@[simp] theorem State.drive_drive (s : State P) (r r' : BitVec 2) : (s.drive r).drive r' = s.drive r' := rfl

@[simp] theorem State.setTime_drive (s : State P) (ent : Entity) (t : TimeOfDay) (r : BitVec 2) :
    (s.drive r).setTime ent t = (s.setTime ent t).drive r := by
  cases ent <;> rfl

@[simp] theorem State.setTime_setTime (s : State P) (ent : Entity) (t u : TimeOfDay) :
    (s.setTime ent t).setTime ent u = s.setTime ent u := by
  cases ent <;> rfl

@[simp] theorem State.setTime_time (s : State P) (ent : Entity) : s.setTime ent (s.time ent) = s := by
  cases ent <;> rfl

/-! ### Times of day -/

theorem TimeOfDay.eq_iff_fields {t u : TimeOfDay} :
    t = u ↔ t.h = u.h ∧ t.m = u.m ∧ t.s = u.s ∧ t.mer = u.mer := by
  constructor
  · rintro rfl
    exact ⟨rfl, rfl, rfl, rfl⟩
  · rintro ⟨hh, hm, hs, hmer⟩
    exact TimeOfDay.ext_of_fields hh hm hs hmer

@[simp] theorem TimeOfDay.editMeridiem_editMeridiem (t : TimeOfDay) : t.editMeridiem.editMeridiem = t := by
  simp [TimeOfDay.editMeridiem]

/-! ### What can happen to ALM.RING -/

theorem ringAfterTick_iff (en ring : Bool) (clk alm : TimeOfDay) :
    ringAfterTick en ring clk alm = true ↔ ring = true ∨ (en = true ∧ clk = alm) := by
  simp [ringAfterTick]

/-- A tick leaves the alarm ringing where it found it ringing, or where it was accepted and brought ClockTime onto the
enabled alarm time (42_timebase.md R110, R112, R113). -/
theorem almRing_after_tbTick_iff {s t : State} (h : exec .tbTick s = .next t) :
    t.almRing = true ↔ s.almRing = true ∨ (s.tickEn = true ∧ s.almEn = true ∧ t.clk = s.alm) := by
  rcases exec_tbTick_cases s with ⟨hen, e⟩ | ⟨hen, e⟩
  · obtain rfl := exec_next_inj h e
    simp [ringAfterTick_iff, hen]
  · obtain rfl := exec_next_inj h e
    simp [hen]

@[simp] theorem State.sequencerStep_almRing (s : State P) (d b : Nat) (mode : Mode) :
    (s.sequencerStep d b mode).almRing = s.almRing := by
  obtain ⟨idx, ph, cnt, cells, blink, colonOn, e⟩ := s.sequencerStep_frame d b mode
  rw [e]

/-- An operation other than a tick keeps ALM.RING, but for the two that clear it (42_timebase.md R112, R125). -/
theorem almRing_of_ne_tbTick {i : Instr} {s t : State} (h : exec i s = .next t) (hi : i ≠ .tbTick) :
    t.almRing = s.almRing ∨ ((i = .alSnooze ∨ i = .alDismiss) ∧ t.almRing = false) := by
  have kept {u : State} (hu : exec i s = .next u) (hring : u.almRing = s.almRing) :
      t.almRing = s.almRing ∨ ((i = .alSnooze ∨ i = .alDismiss) ∧ t.almRing = false) :=
    .inl (exec_next_inj h hu ▸ hring)
  cases i with
  | nop => exact kept (exec_nop s) (by simp)
  | debSample k lvl =>
    obtain ⟨hk, rfl⟩ := exec_debSample_next h
    exact kept h (by simp)
  | qdecStep e raw => exact kept (exec_qdecStep e raw s) (by simp)
  | tbTick => exact absurd rfl hi
  | tbEn b => exact kept (exec_tbEn b s) (by simp)
  | edMin ent st =>
    obtain ⟨d, -, rfl⟩ := exec_edMin_next h
    exact kept h (by simp)
  | edHour ent st =>
    obtain ⟨d, -, rfl⟩ := exec_edHour_next h
    exact kept h (by simp)
  | edMer ent => exact kept (exec_edMer ent s) (by simp)
  | alTen => exact kept (exec_alTen s) (by simp)
  | alSnooze =>
    rcases exec_alSnooze_cases s with ⟨-, e⟩ | ⟨-, e⟩
    · exact .inr ⟨.inl rfl, by rw [exec_next_inj h e, State.drive_almRing]⟩
    · exact kept e (by simp)
  | alDismiss =>
    rcases exec_alDismiss_cases s with ⟨-, e⟩ | ⟨-, e⟩
    · exact .inr ⟨.inr rfl, by rw [exec_next_inj h e, State.drive_almRing]⟩
    · exact kept e (by simp)
  | fmt mode => exact kept (exec_fmt mode s) (by simp)
  | muxStep mode => exact kept (exec_muxStep mode s) (by simp)

end Sys2Proof.Machine

open Sys2Proof Sys2Proof.Machine

/-- Settles O41: a tick by its iff for ALM.RING, any other operation because none of them sets the flag. -/
theorem onlyATickStartsRinging : Obligations.OnlyATickStartsRinging := by
  unfold Obligations.OnlyATickStartsRinging
  intro i s t h
  by_cases hi : i = .tbTick
  · subst hi
    have hring := almRing_after_tbTick_iff h
    exact ⟨fun hquiet => by simp [hring, hquiet, TimeOfDay.eq_iff_fields], fun hringing _ => hring.2 (.inl hringing)⟩
  · refine ⟨fun hquiet => ?_, fun _ htick => absurd htick hi⟩
    have hstays : t.almRing = false := by
      rcases almRing_of_ne_tbTick h hi with hkept | ⟨-, hcleared⟩
      · exact hkept.trans hquiet
      · exact hcleared
    simp [hstays, hi]

/-- Settles O32: the two words by evaluation, the effect by what TB.EN does. -/
theorem tbEnWritesTickEnable : Obligations.TbEnWritesTickEnable := by
  unfold Obligations.TbEnWritesTickEnable
  intro s b
  have hdecode : decode (if b = true then 0x4001 else 0x4000) = .ok (.tbEn b) := by cases b <;> rfl
  exact ⟨hdecode, by rw [exec_tbEn, State.drive_eq]⟩

/-- Settles O35: the second toggle finds the fields the first one wrote and restores them, `Meridiem.flip` being its own
inverse. -/
theorem edMerTogglesTheMeridiem : Obligations.EdMerTogglesTheMeridiem := by
  unfold Obligations.EdMerTogglesTheMeridiem
  intro s ent
  have hdecode : decode (if ent = .clk then 0x7000 else 0x7100) = .ok (.edMer ent) := by cases ent <;> rfl
  refine ⟨hdecode, _, (s.time ent).mer.flip, exec_edMer ent s, Meridiem.flip_ne _, ?_, ?_⟩
  · cases ent <;> rfl
  · calc exec (.edMer ent) ((s.setTime ent (s.time ent).editMeridiem).drive 0b00)
        = .next ((s.setTime ent (s.time ent).editMeridiem.editMeridiem).drive 0b00) := by simp
      _ = .next { s with res := some 0b00 } := by
        rw [TimeOfDay.editMeridiem_editMeridiem, State.setTime_time, State.drive_eq]

/-- Settles O39, by the two cases of a dismissal. -/
theorem alDismissDisarms : Obligations.AlDismissDisarms := by
  unfold Obligations.AlDismissDisarms
  have hdecode : decode 0xA000 = .ok .alDismiss := rfl
  refine ⟨hdecode, fun s => ⟨fun hringing => ?_, fun hquiet => ?_⟩⟩
  · rw [exec_alDismiss_ringing hringing, State.drive_eq]
  · rw [exec_alDismiss_quiet hquiet, State.drive_eq]

end

section
/-! Two modes that show the same entity: format passes and the sequencer cannot tell them apart (43_display.md R142,
R154). -/

namespace Sys2Proof.Machine

variable {P : Params}

theorem State.formatPass_congr {mode mode' : Mode} (h : shownEntity mode = shownEntity mode') (s : State P) :
    s.formatPass mode = s.formatPass mode' := by
  unfold State.formatPass
  rw [h]

theorem State.advance_congr {mode mode' : Mode} (h : shownEntity mode = shownEntity mode') (s : State P) :
    s.advance mode = s.advance mode' := by
  by_cases hlast : s.seqIdx = 4
  · rw [State.advance_of_last hlast, State.advance_of_last hlast, State.formatPass_congr h]
  · rw [State.advance_of_not_last hlast, State.advance_of_not_last hlast]

/-- The mode reaches the sequencer only through the format pass on entering cell 0 (43_display.md R148). -/
theorem State.sequencerStep_congr {mode mode' : Mode} (h : shownEntity mode = shownEntity mode') (s : State P)
    (d b : Nat) : s.sequencerStep d b mode = s.sequencerStep d b mode' := by
  rcases s.sequencerStep_cases d b mode with
    ⟨hp, hcnt, e⟩ | ⟨hp, hcnt, e⟩ | ⟨hp, hcnt, hb, e⟩ | ⟨⟨hp, hcnt, rfl⟩ | ⟨hp, hcnt⟩, e⟩
  · rw [e, State.sequencerStep_dwell_on hp hcnt]
  · rw [e, State.sequencerStep_blank_on hp hcnt]
  · rw [e, State.sequencerStep_dwell_to_blank hp hcnt hb]
  · rw [e, State.sequencerStep_dwell_advance hp hcnt, State.advance_congr h]
  · rw [e, State.sequencerStep_blank_advance hp hcnt, State.advance_congr h]

theorem exec_fmt_congr {mode mode' : Mode} (h : shownEntity mode = shownEntity mode') (s : State) :
    exec (.fmt mode) s = exec (.fmt mode') s := by
  rw [exec_fmt, exec_fmt, State.formatPass_congr h]

theorem exec_muxStep_congr {mode mode' : Mode} (h : shownEntity mode = shownEntity mode') (s : State) :
    exec (.muxStep mode) s = exec (.muxStep mode') s := by
  rw [exec_muxStep, exec_muxStep, State.sequencerStep_congr h]

end Sys2Proof.Machine

open Sys2Proof Sys2Proof.Machine

/-- Settles O46: the two words by evaluation, the rest because TOGGLE_FORMAT and NORMAL both show ClockTime. -/
theorem toggleFormatFormatsAsNormal : Obligations.ToggleFormatFormatsAsNormal := by
  unfold Obligations.ToggleFormatFormatsAsNormal
  have hdecodeFmt : decode 0xB003 = .ok (.fmt .toggleFormat) := rfl
  have hdecodeMux : decode 0xC003 = .ok (.muxStep .toggleFormat) := rfl
  have hshown : shownEntity .toggleFormat = shownEntity .normal := rfl
  exact ⟨hdecodeFmt, hdecodeMux, fun s =>
    ⟨⟨_, exec_fmt .toggleFormat s⟩, exec_fmt_congr hshown s,
      ⟨_, exec_muxStep .toggleFormat s⟩, exec_muxStep_congr hshown s⟩⟩

end

section
/-! The opcode map read in both directions: a word selects at most one row, and within a row the operand fields of the
word and the operands of the operation determine each other (30_encoding.md R65 to R72). -/

namespace Sys2Proof

/-! ### Words and their fields -/

/-- OP, A and D make up the word (30_encoding.md R65). -/
theorem Word.mk_op_fieldA_fieldD (w : Word) : Word.mk w.op w.fieldA w.fieldD = w := by
  have hhigh : w.op ++ w.fieldA = w.extractLsb' 8 8 := BitVec.extractLsb'_append_extractLsb'_eq_extractLsb' rfl
  calc w.op ++ w.fieldA ++ w.fieldD = w.extractLsb' 8 8 ++ w.extractLsb' 0 8 := by rw [hhigh]; rfl
    _ = w.extractLsb' 0 16 := BitVec.extractLsb'_append_extractLsb'_eq_extractLsb' rfl
    _ = w := BitVec.extractLsb'_eq_self

theorem Word.op_and (v w : Word) : Word.op (v &&& w) = v.op &&& w.op := BitVec.extractLsb'_and

theorem Word.fieldA_and (v w : Word) : Word.fieldA (v &&& w) = v.fieldA &&& w.fieldA := BitVec.extractLsb'_and

theorem Word.fieldD_and (v w : Word) : Word.fieldD (v &&& w) = v.fieldD &&& w.fieldD := BitVec.extractLsb'_and

theorem Word.op_toNat (w : Word) : w.op.toNat = (w >>> 12).toNat := by
  simp only [Word.op, BitVec.extractLsb'_toNat, BitVec.toNat_ushiftRight, Nat.shiftRight_eq_div_pow]
  omega

theorem Word.fieldA_toNat (w : Word) : w.fieldA.toNat = ((w >>> 8) &&& 0xF).toNat := by
  simp only [Word.fieldA, BitVec.extractLsb'_toNat, BitVec.toNat_and, BitVec.toNat_ushiftRight]
  rw [show (0xF : Word).toNat = 2 ^ 4 - 1 from rfl, Nat.and_two_pow_sub_one_eq_mod]

theorem Word.op_eq_op_iff (v w : Word) : v.op = w.op ↔ v >>> 12 = w >>> 12 := by
  rw [← BitVec.toNat_inj, ← BitVec.toNat_inj, Word.op_toNat, Word.op_toNat]

theorem Word.lowPair_eq_iff (w : Word) : w.fieldD.extractLsb' 0 2 = 0b10#2 ↔ w &&& 0x3 = 0x2 := by
  rw [← BitVec.toNat_inj, ← BitVec.toNat_inj, BitVec.toNat_and, show (0x3 : Word).toNat = 2 ^ 2 - 1 from rfl,
    Nat.and_two_pow_sub_one_eq_mod]
  simp [Word.fieldD]

/-! ### The rows of the map -/

theorem op_of_selects {w : Word} {r : Row} (hr : r ∈ opcodeMap) (hsel : w &&& r.mask = r.pattern) :
    w.op = r.pattern.op := by
  have hmask : ∀ r ∈ opcodeMap, r.mask.op = BitVec.allOnes 4 := by decide
  rw [← hsel, Word.op_and, hmask r hr, BitVec.and_allOnes]

/-- The rows have distinct OP values (30_encoding.md R69). -/
theorem row_eq_of_op_eq {r₁ r₂ : Row} (h₁ : r₁ ∈ opcodeMap) (h₂ : r₂ ∈ opcodeMap)
    (hop : r₁.pattern.op = r₂.pattern.op) : r₁ = r₂ := by
  have hdistinct : (opcodeMap.map (·.pattern.op)).Nodup := by decide
  exact List.inj_on_of_nodup_map hdistinct h₁ h₂ hop

theorem rowOf_eq_some_iff {w : Word} {r : Row} : rowOf w = some r ↔ r ∈ opcodeMap ∧ r.pattern.op = w.op := by
  constructor
  · intro h
    exact ⟨List.mem_of_find?_eq_some h, by simpa using List.find?_some h⟩
  · rintro ⟨hr, hop⟩
    obtain ⟨r', h'⟩ : ∃ r', rowOf w = some r' :=
      Option.isSome_iff_exists.1 (List.find?_isSome.2 ⟨r, hr, by simpa using hop⟩)
    have hop' : r'.pattern.op = w.op := by simpa using List.find?_some h'
    rw [h', row_eq_of_op_eq (List.mem_of_find?_eq_some h') hr (hop'.trans hop.symm)]

theorem rowOf_of_selects {w : Word} {r : Row} (hr : r ∈ opcodeMap) (hsel : w &&& r.mask = r.pattern) :
    rowOf w = some r := rowOf_eq_some_iff.2 ⟨hr, (op_of_selects hr hsel).symm⟩

/-- OP 0xD, 0xE and 0xF have no row (30_encoding.md R71). -/
theorem rowOf_eq_none_iff (w : Word) : rowOf w = none ↔ 0xD ≤ (w >>> 12).toNat := by
  have hops : ∀ op : BitVec 4, (∀ r ∈ opcodeMap, r.pattern.op ≠ op) ↔ 0xD ≤ op.toNat := by decide
  rw [← Word.op_toNat, ← hops, rowOf, List.find?_eq_none]
  simp

/-- Selecting the row of a given pattern, whose mask is then known (30_encoding.md R68, R69). -/
theorem selects_pattern_iff {w p m : Word} (hp : (p, m) ∈ opcodeMap.map fun r => (r.pattern, r.mask)) :
    (∃ r ∈ opcodeMap, w &&& r.mask = r.pattern ∧ r.pattern = p) ↔ w &&& m = p := by
  obtain ⟨r₀, h₀, e⟩ := List.mem_map.1 hp
  obtain ⟨rfl, rfl⟩ := Prod.mk.inj e
  constructor
  · rintro ⟨r, hr, hsel, hpattern⟩
    rwa [row_eq_of_op_eq hr h₀ (congrArg Word.op hpattern)] at hsel
  · exact fun hsel => ⟨r₀, h₀, hsel, rfl⟩

/-! ### The decoder -/

theorem decode_of_selects {w : Word} {r : Row} (hr : r ∈ opcodeMap) (hsel : w &&& r.mask = r.pattern) :
    decode w = match (r.build w).broken with
      | none => .ok (r.build w)
      | some why => .error why := by
  unfold decode decodeFor
  rw [rowOf_of_selects hr hsel]
  simp only [hsel, if_true]
  rfl

/-- The three ways a word can be decoded, in the order of the checks of R70: it has no row, it breaks its row's mask, or
it selects its row and the row's operation decides. -/
theorem decode_cases (w : Word) :
    (rowOf w = none ∧ decode w = .error .reservedOpcode) ∨
    (∃ r ∈ opcodeMap, r.pattern.op = w.op ∧ w &&& r.mask ≠ r.pattern ∧ decode w = .error .reservedFieldBits) ∨
    ∃ r ∈ opcodeMap, w &&& r.mask = r.pattern := by
  cases hrow : rowOf w with
  | none => exact .inl ⟨rfl, by simp [decode, decodeFor, hrow]⟩
  | some r =>
    obtain ⟨hr, hop⟩ := rowOf_eq_some_iff.1 hrow
    by_cases hsel : w &&& r.mask = r.pattern
    · exact .inr (.inr ⟨r, hr, hsel⟩)
    · exact .inr (.inl ⟨r, hr, hop, hsel, by simp [decode, decodeFor, hrow, hsel]⟩)

/-- The only constraints an operation can break are those on its operands (30_encoding.md R72). -/
theorem broken_cases (i : Instr) :
    i.broken = none ∨ i.broken = some .buttonIndexOutOfRange ∨ i.broken = some .reservedStepCode := by
  unfold Instr.broken Instr.brokenFor
  split
  · split_ifs
    · exact .inl rfl
    · exact .inr (.inl rfl)
  · split_ifs
    · exact .inr (.inr rfl)
    · exact .inl rfl
  · split_ifs
    · exact .inr (.inr rfl)
    · exact .inl rfl
  all_goals exact .inl rfl

theorem decode_reservedOpcode_iff (w : Word) : decode w = .error .reservedOpcode ↔ rowOf w = none := by
  rcases decode_cases w with ⟨hrow, e⟩ | ⟨r, hr, hop, -, e⟩ | ⟨r, hr, hsel⟩
  · simp [hrow, e]
  · simp [rowOf_eq_some_iff.2 ⟨hr, hop⟩, e]
  · rw [decode_of_selects hr hsel, rowOf_of_selects hr hsel]
    rcases broken_cases (r.build w) with e | e | e <;> simp [e]

theorem decode_reservedFieldBits_iff (w : Word) :
    decode w = .error .reservedFieldBits ↔ ∃ r ∈ opcodeMap, r.pattern.op = w.op ∧ w &&& r.mask ≠ r.pattern := by
  rcases decode_cases w with ⟨hrow, e⟩ | ⟨r, hr, hop, hmask, e⟩ | ⟨r, hr, hsel⟩
  · simp only [e, Except.error.injEq, reduceCtorEq, false_iff]
    rintro ⟨r, hr, hop, -⟩
    exact absurd (rowOf_eq_some_iff.2 ⟨hr, hop⟩) (by simp [hrow])
  · simp only [e, true_iff]
    exact ⟨r, hr, hop, hmask⟩
  · have hdecode : decode w ≠ .error .reservedFieldBits := by
      rw [decode_of_selects hr hsel]
      rcases broken_cases (r.build w) with e | e | e <;> simp [e]
    refine iff_of_false hdecode ?_
    rintro ⟨r', hr', hop', hmask'⟩
    obtain rfl := row_eq_of_op_eq hr' hr (hop'.trans (op_of_selects hr hsel))
    exact hmask' hsel

/-- A word is refused for an operand exactly when it selects a row whose operation breaks that constraint. -/
theorem decode_operand_iff (w : Word) {why : Reserved} (hop : why ≠ .reservedOpcode)
    (hbits : why ≠ .reservedFieldBits) :
    decode w = .error why ↔ ∃ r ∈ opcodeMap, w &&& r.mask = r.pattern ∧ (r.build w).broken = some why := by
  have refused_iff {r : Row} (hr : r ∈ opcodeMap) (hsel : w &&& r.mask = r.pattern) :
      decode w = .error why ↔ (r.build w).broken = some why := by
    rw [decode_of_selects hr hsel]
    split <;> simp [*]
  constructor
  · intro h
    rcases decode_cases w with ⟨-, e⟩ | ⟨r, -, -, -, e⟩ | ⟨r, hr, hsel⟩
    · exact absurd (Except.error.inj (e.symm.trans h)).symm hop
    · exact absurd (Except.error.inj (e.symm.trans h)).symm hbits
    · exact ⟨r, hr, hsel, (refused_iff hr hsel).1 h⟩
  · rintro ⟨r, hr, hsel, hbroken⟩
    exact (refused_iff hr hsel).2 hbroken

/-! ### From the operation to its word and back -/

theorem encodeFitsRow (i : Instr) : Laws.EncodeFitsRow.Statement i := by
  cases i with
  | nop => exact Laws.EncodeFitsRow.nop
  | debSample i lvl => exact Laws.EncodeFitsRow.debSample i lvl
  | qdecStep e raw => exact Laws.EncodeFitsRow.qdecStep e raw
  | tbTick => exact Laws.EncodeFitsRow.tbTick
  | tbEn b => exact Laws.EncodeFitsRow.tbEn b
  | edMin ent st => exact Laws.EncodeFitsRow.edMin ent st
  | edHour ent st => exact Laws.EncodeFitsRow.edHour ent st
  | edMer ent => exact Laws.EncodeFitsRow.edMer ent
  | alTen => exact Laws.EncodeFitsRow.alTen
  | alSnooze => exact Laws.EncodeFitsRow.alSnooze
  | alDismiss => exact Laws.EncodeFitsRow.alDismiss
  | fmt mode => exact Laws.EncodeFitsRow.fmt mode
  | muxStep mode => exact Laws.EncodeFitsRow.muxStep mode

/-- The row of an operation's word builds that operation (30_encoding.md R66). -/
theorem build_encode (i : Instr) : (rowOf (encode i)).map (·.build (encode i)) = some i := by
  cases i with
  | debSample i lvl => revert i lvl; decide
  | qdecStep e raw => revert e raw; decide
  | tbEn b => cases b <;> rfl
  | edMin ent st => cases ent <;> revert st <;> decide
  | edHour ent st => cases ent <;> revert st <;> decide
  | edMer ent => cases ent <;> rfl
  | fmt mode => cases mode <;> rfl
  | muxStep mode => cases mode <;> rfl
  | _ => rfl

/-- The word of an operation decodes to it, or is refused for the constraint that the operation breaks. -/
theorem decode_encode (i : Instr) :
    decode (encode i) = match i.broken with
      | none => .ok i
      | some why => .error why := by
  have hbuild := build_encode i
  have hfits := encodeFitsRow i
  unfold Laws.EncodeFitsRow.Statement at hfits
  cases hrow : rowOf (encode i) with
  | none => simp [hrow] at hbuild
  | some r =>
    have hi : r.build (encode i) = i := by simpa [hrow] using hbuild
    have hsel : encode i &&& r.mask = r.pattern := by simpa [hrow] using hfits
    rw [decode_of_selects (rowOf_eq_some_iff.1 hrow).1 hsel, hi]

/-! ### From a word to its operation and back

A field keeps only the bits that the row's mask leaves open, and each operand keeps them all (30_encoding.md R66). -/

theorem encoderField (a : BitVec 4) (h : a &&& 0xE = 0) :
    BitVec.ofNat 4 (encoderOfBit (a.getLsbD 0)).val = a := by
  revert a; decide

theorem entityField (a : BitVec 4) (h : a &&& 0xE = 0) :
    (BitVec.ofBool (Entity.ofBit (a.getLsbD 0)).bit).setWidth 4 = a := by
  revert a; decide

theorem levelField (d : BitVec 8) (h : d &&& 0xFE = 0) : (d.extractLsb' 0 1).setWidth 8 = d := by
  revert d; decide

theorem bitField (d : BitVec 8) (h : d &&& 0xFE = 0) : (BitVec.ofBool (d.getLsbD 0)).setWidth 8 = d := by
  revert d; decide

theorem pairField (d : BitVec 8) (h : d &&& 0xFC = 0) : (d.extractLsb' 0 2).setWidth 8 = d := by
  revert d; decide

theorem modeField (d : BitVec 8) (h : d &&& 0xFC = 0) :
    (Mode.ofCode (d.extractLsb' 0 2)).code.setWidth 8 = d := by
  revert d; decide

/-- Within its row a word is the word of the operation that the row builds from it. -/
theorem encode_build {w : Word} {r : Row} (hr : r ∈ opcodeMap) (hsel : w &&& r.mask = r.pattern) :
    encode (r.build w) = w := by
  have hop := op_of_selects hr hsel
  have hA : w.fieldA &&& r.mask.fieldA = r.pattern.fieldA := by rw [← Word.fieldA_and, hsel]
  have hD : w.fieldD &&& r.mask.fieldD = r.pattern.fieldD := by rw [← Word.fieldD_and, hsel]
  have hw : ∀ a d, w.fieldA = a → w.fieldD = d → Word.mk r.pattern.op a d = w := by
    rintro a d rfl rfl
    rw [← hop, Word.mk_op_fieldA_fieldD]
  have whole {n : Nat} {x : BitVec n} (hx : x &&& BitVec.allOnes n = 0) : x = 0 := by rwa [BitVec.and_allOnes] at hx
  simp only [opcodeMap, List.mem_cons, List.not_mem_nil, or_false] at hr
  rcases hr with rfl | rfl | rfl | rfl | rfl | rfl | rfl | rfl | rfl | rfl | rfl | rfl | rfl
  · exact hw _ _ (whole hA) (whole hD)
  · exact hw _ _ rfl (levelField _ hD).symm
  · exact hw _ _ (encoderField _ hA).symm (pairField _ hD).symm
  · exact hw _ _ (whole hA) (whole hD)
  · exact hw _ _ (whole hA) (bitField _ hD).symm
  · exact hw _ _ (entityField _ hA).symm (pairField _ hD).symm
  · exact hw _ _ (entityField _ hA).symm (pairField _ hD).symm
  · exact hw _ _ (entityField _ hA).symm (whole hD)
  · exact hw _ _ (whole hA) (whole hD)
  · exact hw _ _ (whole hA) (whole hD)
  · exact hw _ _ (whole hA) (whole hD)
  · exact hw _ _ (whole hA) (modeField _ hD).symm
  · exact hw _ _ (whole hA) (modeField _ hD).symm

/-- Of the 13 rows only DEB.SAMPLE's can build an operation with an excluded button index (30_encoding.md R72). -/
theorem build_broken_button_iff {w : Word} {r : Row} (hr : r ∈ opcodeMap) :
    (r.build w).broken = some .buttonIndexOutOfRange ↔ r.pattern = 0x1000 ∧ 8 ≤ w.fieldA.toNat := by
  simp only [opcodeMap, List.mem_cons, List.not_mem_nil, or_false] at hr
  rcases hr with rfl | rfl | rfl | rfl | rfl | rfl | rfl | rfl | rfl | rfl | rfl | rfl | rfl <;>
    simp [Instr.broken, Instr.brokenFor]

/-- Of the 13 rows only ED.MIN's and ED.HOUR's can build an operation with the reserved step code
(30_encoding.md R72). -/
theorem build_broken_step_iff {w : Word} {r : Row} (hr : r ∈ opcodeMap) :
    (r.build w).broken = some .reservedStepCode ↔
      (r.pattern = 0x5000 ∨ r.pattern = 0x6000) ∧ w.fieldD.extractLsb' 0 2 = 0b10#2 := by
  simp only [opcodeMap, List.mem_cons, List.not_mem_nil, or_false] at hr
  rcases hr with rfl | rfl | rfl | rfl | rfl | rfl | rfl | rfl | rfl | rfl | rfl | rfl | rfl <;>
    simp [Instr.broken, Instr.brokenFor]

end Sys2Proof

open Sys2Proof Sys2Proof.Machine

/-- Settles O1: a well-formed operation breaks no constraint, so the decoder answers what the row builds. -/
theorem decodeOfEncode : Obligations.DecodeOfEncode := by
  unfold Obligations.DecodeOfEncode
  intro i hwf
  rw [decode_encode, Option.isNone_iff_eq_none.1 hwf]

/-- Settles O2: a legal word selects its row, and within a row word and operation determine each other. -/
theorem encodeOfDecode : Obligations.EncodeOfDecode := by
  unfold Obligations.EncodeOfDecode
  intro w i h
  rcases decode_cases w with ⟨-, e⟩ | ⟨r, -, -, -, e⟩ | ⟨r, hr, hsel⟩
  · rw [e] at h; nomatch h
  · rw [e] at h; nomatch h
  · have hbroken := decode_broken h
    rw [decode_of_selects hr hsel] at h
    obtain rfl : r.build w = i := by
      split at h
      · exact Except.ok.inj h
      · nomatch h
    exact ⟨Option.isNone_iff_eq_none.2 hbroken, encode_build hr hsel⟩

/-- Settles O3: the opcode by the OP values that no row has, the field bits by the rows' masks, the two operands by the
rows that can build an operation with such an operand. -/
theorem reservedWordsAreRefusedByReason : Obligations.ReservedWordsAreRefusedByReason := by
  unfold Obligations.ReservedWordsAreRefusedByReason
  intro w
  refine ⟨(decode_reservedOpcode_iff w).trans (rowOf_eq_none_iff w), (decode_reservedFieldBits_iff w).trans ?_,
    (decode_operand_iff w (by decide) (by decide)).trans ?_, (decode_operand_iff w (by decide) (by decide)).trans ?_⟩
  · calc (∃ r ∈ opcodeMap, r.pattern.op = w.op ∧ w &&& r.mask ≠ r.pattern)
        ↔ ∃ p ∈ opcodeMap.map (fun r => ((r.pattern, r.mask) : Word × Word)),
            w >>> 12 = p.1 >>> 12 ∧ w &&& p.2 ≠ p.1 := by
          simp only [List.mem_map, exists_exists_and_eq_and, Word.op_eq_op_iff, eq_comm (a := w >>> 12)]
      _ ↔ _ := Iff.rfl
  · rw [← selects_pattern_iff (p := 0x1000) (m := 0xF0FE) (by decide), ← Word.fieldA_toNat]
    constructor
    · rintro ⟨r, hr, hsel, hbroken⟩
      obtain ⟨hpattern, hA⟩ := (build_broken_button_iff hr).1 hbroken
      exact ⟨⟨r, hr, hsel, hpattern⟩, hA⟩
    · rintro ⟨⟨r, hr, hsel, hpattern⟩, hA⟩
      exact ⟨r, hr, hsel, (build_broken_button_iff hr).2 ⟨hpattern, hA⟩⟩
  · rw [← selects_pattern_iff (p := 0x5000) (m := 0xFEFC) (by decide),
      ← selects_pattern_iff (p := 0x6000) (m := 0xFEFC) (by decide), ← Word.lowPair_eq_iff]
    constructor
    · rintro ⟨r, hr, hsel, hbroken⟩
      obtain ⟨hpattern | hpattern, hD⟩ := (build_broken_step_iff hr).1 hbroken
      · exact ⟨.inl ⟨r, hr, hsel, hpattern⟩, hD⟩
      · exact ⟨.inr ⟨r, hr, hsel, hpattern⟩, hD⟩
    · rintro ⟨⟨r, hr, hsel, hpattern⟩ | ⟨r, hr, hsel, hpattern⟩, hD⟩
      · exact ⟨r, hr, hsel, (build_broken_step_iff hr).2 ⟨.inl hpattern, hD⟩⟩
      · exact ⟨r, hr, hsel, (build_broken_step_iff hr).2 ⟨.inr hpattern, hD⟩⟩

/-- Settles O4: a selected row has the word's OP, and the rows' OP values are distinct. -/
theorem opcodeMapRowsDoNotOverlap : Obligations.OpcodeMapRowsDoNotOverlap := by
  unfold Obligations.OpcodeMapRowsDoNotOverlap
  intro w r₁ r₂ h₁ h₂ hsel₁ hsel₂
  rw [row_eq_of_op_eq h₁ h₂ ((op_of_selects h₁ hsel₁).symm.trans (op_of_selects h₂ hsel₂))]

/-- Settles O5, by evaluating the decoder on the thirteen words. -/
theorem wordsOfTheMapDecode : Obligations.WordsOfTheMapDecode :=
  ⟨rfl, rfl, rfl, rfl, rfl, rfl, rfl, rfl, rfl, rfl, rfl, rfl, rfl⟩

/-- Settles O6: the two bytes are the two halves of the word, which put together again are the word. -/
theorem serialisedWordsReadBack : Obligations.SerialisedWordsReadBack := by
  unfold Obligations.SerialisedWordsReadBack
  intro w rest
  have hhigh : w.extractLsb' 8 8 = (w >>> 8).setWidth 8 := by
    apply BitVec.eq_of_toNat_eq
    simp
  have hlow : w.extractLsb' 0 8 = w.setWidth 8 := by
    apply BitVec.eq_of_toNat_eq
    simp
  have hwhole : w.extractLsb' 8 8 ++ w.extractLsb' 0 8 = w :=
    (BitVec.extractLsb'_append_extractLsb'_eq_extractLsb' rfl).trans BitVec.extractLsb'_eq_self
  exact ⟨by rw [Word.toBytes, hhigh, hlow], congrArg (fun v => some (v, rest)) hwhole⟩

end

section
/-! The invariants: they hold at reset and every step keeps them, for any legal parameters (42_timebase.md R130,
10_state.md R33, 43_display.md R153, 00_scope.md R8). -/

namespace Sys2Proof.Machine

variable {P : Params}

/-! ### This hardware's parameters -/

/-- The table of this hardware is the legal one that starts at the forward code 0001 (41_quadrature.md R101). -/
theorem qdecTable_legal : QdecLegal qdecTable := ⟨0, by decide⟩

theorem params_legal : Config.params.Legal where
  numButtons := by decide
  debW := by decide
  debN := by decide
  debM := by decide
  qdecTable := qdecTable_legal
  snoozeOffset := by decide
  dwellLen := Nat.succ_pos Config.dwellExtra

/-! ### The kinds of operations and what each can do -/

/-- `i` is an edit of the entity `ent` that brings its time fields from `t` to `u` (42_timebase.md R116 to R118). -/
def EditOf (i : Instr) (ent : Entity) (t u : TimeOfDay) : Prop :=
  (∃ st d, i = .edMin ent st ∧ u = t.editMinutes d) ∨ (∃ st d, i = .edHour ent st ∧ u = t.editHours d) ∨
    (i = .edMer ent ∧ u = t.editMeridiem)

theorem EditOf.inRange {i : Instr} {ent : Entity} {t u : TimeOfDay} (h : EditOf i ent t u) (ht : t.InRange) :
    u.InRange := by
  rcases h with ⟨st, d, -, rfl⟩ | ⟨st, d, -, rfl⟩ | ⟨-, rfl⟩
  · exact t.editMinutes_inRange d ht
  · exact t.editHours_inRange d ht
  · exact t.editMeridiem_inRange ht

theorem EditOf.seconds {i : Instr} {ent : Entity} {t u : TimeOfDay} (h : EditOf i ent t u) : u.s = t.s := by
  rcases h with ⟨st, d, -, rfl⟩ | ⟨st, d, -, rfl⟩ | ⟨-, rfl⟩ <;> rfl

theorem EditOf.operation {i : Instr} {ent : Entity} {t u : TimeOfDay} (h : EditOf i ent t u) :
    (∃ st, i = .edMin ent st) ∨ (∃ st, i = .edHour ent st) ∨ i = .edMer ent := by
  rcases h with ⟨st, -, hi, -⟩ | ⟨st, -, hi, -⟩ | ⟨hi, -⟩
  · exact .inl ⟨st, hi⟩
  · exact .inr (.inl ⟨st, hi⟩)
  · exact .inr (.inr hi)

/-- The cases of `perform_next_cases` by kind: nothing done, a sample, an accepted tick, the tick enable, an edit, the
alarm control, a format pass, the sequencer. -/
theorem perform_kind_cases {i : Instr} {s t : State P} (h : perform i s = .next t) :
    t = s.drive 0b00 ∨
    (Source.sampling.delivers i = true ∧ ∃ d q r, t = ({ s with deb := d, qh := q } : State P).drive r) ∨
    (i = .tbTick ∧ t = s.acceptTick.drive 0b00) ∨
    (∃ b, i = .tbEn b ∧ t = ({ s with tickEn := b } : State P).drive 0b00) ∨
    (∃ ent u, EditOf i ent (s.time ent) u ∧ t = (s.setTime ent u).drive 0b00) ∨
    (∃ en ring alm, (((i = .alTen ∨ i = .alDismiss) ∧ alm = s.alm) ∨
        (i = .alSnooze ∧ en = s.almEn ∧ alm = s.alm.defer P.snoozeOffset)) ∧
      t = ({ s with almEn := en, almRing := ring, alm := alm } : State P).drive 0b00) ∨
    (∃ mode, i = .fmt mode ∧ t = (s.formatPass mode).drive 0b00) ∨
    (∃ mode, i = .muxStep mode ∧ t = (s.sequencerStep P.dwellLen P.blankLen mode).drive 0b00) := by
  rcases perform_next_cases h with
    ⟨-, ht⟩ | ⟨k, lvl, rfl, rfl⟩ | ⟨e, raw, rfl, rfl⟩ | ⟨hi, -, ht⟩ | ⟨-, -, ht⟩ | ⟨b, hi, ht⟩ |
    ⟨ent, st, d, hi, -, ht⟩ | ⟨ent, st, d, hi, -, ht⟩ | ⟨ent, hi, ht⟩ | ⟨hi, rfl⟩ | ⟨hi, -, rfl⟩ | ⟨-, -, ht⟩ |
    ⟨hi, -, rfl⟩ | ⟨-, -, ht⟩ | ⟨mode, hi, ht⟩ | ⟨mode, hi, ht⟩
  · exact .inl ht
  · exact .inr (.inl ⟨rfl, _, _, _, rfl⟩)
  · exact .inr (.inl ⟨rfl, _, _, _, rfl⟩)
  · exact .inr (.inr (.inl ⟨hi, ht⟩))
  · exact .inl ht
  · exact .inr (.inr (.inr (.inl ⟨b, hi, ht⟩)))
  · exact .inr (.inr (.inr (.inr (.inl ⟨ent, _, .inl ⟨st, d, hi, rfl⟩, ht⟩))))
  · exact .inr (.inr (.inr (.inr (.inl ⟨ent, _, .inr (.inl ⟨st, d, hi, rfl⟩), ht⟩))))
  · exact .inr (.inr (.inr (.inr (.inl ⟨ent, _, .inr (.inr ⟨hi, rfl⟩), ht⟩))))
  · exact .inr (.inr (.inr (.inr (.inr (.inl ⟨_, _, _, .inl ⟨.inl hi, rfl⟩, rfl⟩)))))
  · exact .inr (.inr (.inr (.inr (.inr (.inl ⟨_, _, _, .inr ⟨hi, rfl, rfl⟩, rfl⟩)))))
  · exact .inl ht
  · exact .inr (.inr (.inr (.inr (.inr (.inl ⟨_, _, _, .inl ⟨.inr hi, rfl⟩, rfl⟩)))))
  · exact .inl ht
  · exact .inr (.inr (.inr (.inr (.inr (.inr (.inl ⟨mode, hi, ht⟩))))))
  · exact .inr (.inr (.inr (.inr (.inr (.inr (.inr ⟨mode, hi, ht⟩))))))

@[simp] theorem State.sequencerStep_clk (s : State P) (d b : Nat) (mode : Mode) :
    (s.sequencerStep d b mode).clk = s.clk := by
  obtain ⟨idx, ph, cnt, cells, blink, colonOn, e⟩ := s.sequencerStep_frame d b mode
  rw [e]

@[simp] theorem State.sequencerStep_alm (s : State P) (d b : Nat) (mode : Mode) :
    (s.sequencerStep d b mode).alm = s.alm := by
  obtain ⟨idx, ph, cnt, cells, blink, colonOn, e⟩ := s.sequencerStep_frame d b mode
  rw [e]

/-- Which operations write the time fields, and what (10_state.md R37): the tick, a snooze, the edits. -/
theorem perform_times_cases {i : Instr} {s t : State P} (h : perform i s = .next t) :
    (t.clk = s.clk ∧ t.alm = s.alm) ∨
    (i = .tbTick ∧ t.clk = s.clk.tick ∧ t.alm = s.alm) ∨
    (i = .alSnooze ∧ t.clk = s.clk ∧ t.alm = s.alm.defer P.snoozeOffset) ∨
    (∃ ent u, EditOf i ent (s.time ent) u ∧ t = (s.setTime ent u).drive 0b00) := by
  rcases perform_kind_cases h with
    rfl | ⟨-, d, q, r, rfl⟩ | ⟨hi, rfl⟩ | ⟨b, -, rfl⟩ | hedit | ⟨en, ring, alm, halm, rfl⟩ | ⟨mode, -, rfl⟩ |
    ⟨mode, -, rfl⟩
  · exact .inl ⟨rfl, rfl⟩
  · exact .inl ⟨rfl, rfl⟩
  · exact .inr (.inl ⟨hi, rfl, rfl⟩)
  · exact .inl ⟨rfl, rfl⟩
  · exact .inr (.inr (.inr hedit))
  · rcases halm with ⟨-, hkept⟩ | ⟨hi, -, hdefer⟩
    · exact .inl ⟨rfl, hkept⟩
    · exact .inr (.inr (.inl ⟨hi, rfl, hdefer⟩))
  · exact .inl ⟨rfl, rfl⟩
  · exact .inl ⟨by simp, by simp⟩

/-- Only MUX.STEP moves the sequencer (10_state.md R37). -/
theorem perform_sequencer_cases {i : Instr} {s t : State P} (h : perform i s = .next t) :
    (t.seqIdx = s.seqIdx ∧ t.seqPh = s.seqPh ∧ t.seqCnt = s.seqCnt) ∨
    ∃ mode, i = .muxStep mode ∧ t = (s.sequencerStep P.dwellLen P.blankLen mode).drive 0b00 := by
  rcases perform_kind_cases h with
    rfl | ⟨-, d, q, r, rfl⟩ | ⟨-, rfl⟩ | ⟨b, -, rfl⟩ | ⟨ent, u, -, rfl⟩ | ⟨en, ring, alm, -, rfl⟩ | ⟨mode, -, rfl⟩ |
    hmux
  case inr.inr.inr.inr.inr.inr.inr => exact .inr hmux
  all_goals exact .inl ⟨by simp, by simp, by simp⟩

/-- A MUX.STEP moves the sequencer alone, or enters cell 0 with a format pass (43_display.md R148). -/
theorem State.sequencerStep_display_cases (s : State P) (d b : Nat) (mode : Mode) :
    (∃ idx ph cnt, s.sequencerStep d b mode = { s with seqIdx := idx, seqPh := ph, seqCnt := cnt }) ∨
    (s.seqIdx = 4 ∧
      s.sequencerStep d b mode = { s.formatPass mode with seqIdx := 0, seqPh := .dwell, seqCnt := 0 }) := by
  rcases s.sequencerStep_cases d b mode with ⟨-, -, e⟩ | ⟨-, -, e⟩ | ⟨-, -, -, e⟩ | ⟨-, e⟩
  · exact .inl ⟨_, _, _, e⟩
  · exact .inl ⟨_, _, _, e⟩
  · exact .inl ⟨_, _, _, e⟩
  · let u : State P := { s with seqCnt := 0, seqPh := .dwell }
    by_cases hlast : s.seqIdx = 4
    · exact .inr ⟨hlast, e.trans (State.advance_of_last (s := u) hlast mode)⟩
    · exact .inl ⟨_, _, _, e.trans (State.advance_of_not_last (s := u) hlast mode)⟩

/-- The cells and the colon are written by format passes alone, BLINK also by a tick; a MUX.STEP's pass is on entering
cell 0 (10_state.md R37). -/
theorem perform_display_cases {i : Instr} {s t : State P} (h : perform i s = .next t) :
    (t.cells = s.cells ∧ t.colonOn = s.colonOn ∧ (t.blink = s.blink ∨ i = .tbTick)) ∨
    ∃ mode, (i = .fmt mode ∨ i = .muxStep mode ∧ s.seqIdx = 4 ∧ t.AtCycleStart) ∧
      t.cells = (s.formatPass mode).cells := by
  rcases perform_kind_cases h with
    rfl | ⟨-, d, q, r, rfl⟩ | ⟨hi, rfl⟩ | ⟨b, -, rfl⟩ | ⟨ent, u, -, rfl⟩ | ⟨en, ring, alm, -, rfl⟩ | ⟨mode, hi, rfl⟩ |
    ⟨mode, hi, rfl⟩
  · exact .inl ⟨rfl, rfl, .inl rfl⟩
  · exact .inl ⟨rfl, rfl, .inl rfl⟩
  · exact .inl ⟨rfl, rfl, .inr hi⟩
  · exact .inl ⟨rfl, rfl, .inl rfl⟩
  · exact .inl ⟨by simp, by simp, .inl (by simp)⟩
  · exact .inl ⟨rfl, rfl, .inl rfl⟩
  · exact .inr ⟨mode, .inl hi, rfl⟩
  · rcases s.sequencerStep_display_cases P.dwellLen P.blankLen mode with ⟨idx, ph, cnt, e⟩ | ⟨hlast, e⟩ <;> rw [e]
    · exact .inl ⟨rfl, rfl, .inl rfl⟩
    · exact .inr ⟨mode, .inr ⟨hi, hlast, rfl, rfl, rfl⟩, rfl⟩

/-! ### Every operation keeps the invariants -/

theorem State.TimesInRange.time {s : State P} (hs : s.TimesInRange) (ent : Entity) : (s.time ent).InRange := by
  cases ent with
  | clk => exact hs.1
  | alm => exact hs.2

theorem State.TimesInRange.setTime {s : State P} (hs : s.TimesInRange) (ent : Entity) {u : TimeOfDay}
    (hu : u.InRange) : (s.setTime ent u).TimesInRange := by
  cases ent with
  | clk => exact ⟨hu, hs.2⟩
  | alm => exact ⟨hs.1, hu⟩

/-- The tick, the snooze and the edits bring a time in range to a time in range; nothing else writes one
(42_timebase.md R130). -/
theorem perform_keeps_timesInRange (hP : P.Legal) {i : Instr} {s t : State P} (hs : s.TimesInRange)
    (h : perform i s = .next t) : t.TimesInRange := by
  rcases perform_times_cases h with ⟨hclk, halm⟩ | ⟨-, hclk, halm⟩ | ⟨-, hclk, halm⟩ | ⟨ent, u, hedit, rfl⟩
  · exact ⟨hclk ▸ hs.1, halm ▸ hs.2⟩
  · exact ⟨hclk ▸ (s.clk.tick_spec hs.1).1, halm ▸ hs.2⟩
  · exact ⟨hclk ▸ hs.1, halm ▸ (s.alm.defer_spec _ hP.snoozeOffset.2 hs.2).1⟩
  · exact hs.setTime ent (hedit.inRange (hs.time ent))

theorem State.sequencerInRange_iff (s : State P) :
    s.SequencerInRange ↔ (s.seqPh = .dwell ∧ s.seqCnt < P.dwellLen) ∨ (s.seqPh = .blank ∧ s.seqCnt < P.blankLen) := by
  unfold State.SequencerInRange
  cases s.seqPh <;> simp

theorem State.advance_seqPh (s : State P) (mode : Mode) : (s.advance mode).seqPh = s.seqPh := by
  unfold State.advance
  split <;> rfl

theorem State.advance_seqCnt (s : State P) (mode : Mode) : (s.advance mode).seqCnt = s.seqCnt := by
  unfold State.advance
  split <;> rfl

/-- A MUX.STEP counts on below the length of the phase, or starts a phase at count 0 where that phase has a step
(43_display.md R148). -/
theorem State.sequencerStep_sequencerInRange (hP : P.Legal) (s : State P) (mode : Mode) :
    (s.sequencerStep P.dwellLen P.blankLen mode).SequencerInRange := by
  rw [State.sequencerInRange_iff]
  rcases s.sequencerStep_cases P.dwellLen P.blankLen mode with
    ⟨hp, hcnt, e⟩ | ⟨hp, hcnt, e⟩ | ⟨-, -, hb, e⟩ | ⟨-, e⟩ <;> rw [e]
  · exact .inl ⟨hp, hcnt⟩
  · exact .inr ⟨hp, hcnt⟩
  · exact .inr ⟨rfl, hb⟩
  · exact .inl ⟨State.advance_seqPh _ mode, (State.advance_seqCnt _ mode).trans_lt hP.dwellLen⟩

theorem perform_keeps_sequencerInRange (hP : P.Legal) {i : Instr} {s t : State P} (hs : s.SequencerInRange)
    (h : perform i s = .next t) : t.SequencerInRange := by
  rcases perform_sequencer_cases h with ⟨-, hph, hcnt⟩ | ⟨mode, -, rfl⟩
  · rw [State.sequencerInRange_iff] at hs ⊢
    rwa [hph, hcnt]
  · exact s.sequencerStep_sequencerInRange hP mode

theorem perform_keeps_cellsFromOnePass {i : Instr} {s t : State P} (htimes : s.TimesInRange)
    (hs : s.CellsFromOnePass) (h : perform i s = .next t) : t.CellsFromOnePass := by
  rcases perform_display_cases h with ⟨hcells, -⟩ | ⟨mode, -, hcells⟩
  · unfold State.CellsFromOnePass
    rwa [hcells]
  · exact .inr ⟨_, _, _, htimes.time (shownEntity mode), hcells⟩

/-! ### From operations to steps -/

theorem TimeOfDay.twelveAm_inRange : TimeOfDay.twelveAm.InRange := by
  unfold TimeOfDay.InRange TimeOfDay.twelveAm
  decide

theorem State.powerUp_inv (hP : P.Legal) (k : Nat) (inputs : List Input) : (State.powerUp k inputs : State P).Inv where
  times := ⟨TimeOfDay.twelveAm_inRange, TimeOfDay.twelveAm_inRange⟩
  sequencer := hP.dwellLen
  cells := .inl rfl

/-- A property of the state that does not read the inputs, holds at reset and is kept by operations from the states
where `R` holds is kept by steps from those states. -/
theorem stepOf_keeps {Q : State P → Prop} (hreset : ∀ k inputs, Q (.powerUp k inputs)) {s t : State P}
    (hperform : ∀ i rest, perform i (s.withInputs rest) = .next t → Q t) (h : stepOf s = .next t) : Q t := by
  rcases stepWith_next_cases h with ⟨rest, -, rfl⟩ | ⟨w, i, rest, -, -, hperf⟩
  · exact hreset _ _
  · exact hperform i rest hperf

theorem stepOf_keeps_timesInRange (hP : P.Legal) {s t : State P} (hs : s.TimesInRange) (h : stepOf s = .next t) :
    t.TimesInRange :=
  stepOf_keeps (fun k inputs => (State.powerUp_inv hP k inputs).times)
    (fun _ rest => perform_keeps_timesInRange hP (s := s.withInputs rest) hs) h

theorem stepOf_keeps_sequencerInRange (hP : P.Legal) {s t : State P} (hs : s.SequencerInRange)
    (h : stepOf s = .next t) : t.SequencerInRange :=
  stepOf_keeps (fun k inputs => (State.powerUp_inv hP k inputs).sequencer)
    (fun _ rest => perform_keeps_sequencerInRange hP (s := s.withInputs rest) hs) h

theorem stepOf_keeps_cellsFromOnePass (hP : P.Legal) {s t : State P} (htimes : s.TimesInRange)
    (hs : s.CellsFromOnePass) (h : stepOf s = .next t) : t.CellsFromOnePass :=
  stepOf_keeps (fun k inputs => (State.powerUp_inv hP k inputs).cells)
    (fun _ rest => perform_keeps_cellsFromOnePass (s := s.withInputs rest) htimes hs) h

end Sys2Proof.Machine

open Sys2Proof Sys2Proof.Machine

/-- Settles O15. -/
theorem resetStateIsGood : Obligations.ResetStateIsGood :=
  ⟨params_legal, State.powerUp_inv params_legal 0 [], fun _ k inputs hP => State.powerUp_inv hP k inputs⟩

/-- Settles O16: the steps of any legal block keep the range, and this hardware is one. -/
theorem stepKeepsTimesInRange : Obligations.StepKeepsTimesInRange :=
  ⟨fun s _ hs h => stepOf_keeps_timesInRange params_legal hs ((step_eq_stepOf s).symm.trans h),
    fun _ _ _ hP hs h => stepOf_keeps_timesInRange hP hs h⟩

/-- Settles O17: the steps of any legal block keep the range, and this hardware is one. -/
theorem stepKeepsSequencerInRange : Obligations.StepKeepsSequencerInRange :=
  ⟨fun s _ hs h => stepOf_keeps_sequencerInRange params_legal hs ((step_eq_stepOf s).symm.trans h),
    fun _ _ _ hP hs h => stepOf_keeps_sequencerInRange hP hs h⟩

/-- Settles O18: the steps of any legal block keep the cells those of one pass, and this hardware is one. -/
theorem stepKeepsCellsFromOnePass : Obligations.StepKeepsCellsFromOnePass :=
  ⟨fun s _ htimes hs h => stepOf_keeps_cellsFromOnePass params_legal htimes hs ((step_eq_stepOf s).symm.trans h),
    fun _ _ _ hP htimes hs h => stepOf_keeps_cellsFromOnePass hP htimes hs h⟩

end

section
/-! What no operation but the sampling ones reads: the histories, the inputs and the result port (10_state.md R36,
30_encoding.md R65, R67). -/

namespace Sys2Proof.Machine

variable {P : Params}

/-- The same state with other histories, other inputs and another value on the result port. -/
def State.withUnread (s : State P) (deb : Vector (BitVec P.debW) P.numButtons)
    (qh : Vector (BitVec 4) Config.numEncoders) (inputs : List Input) (res : Option (BitVec 2)) : State P :=
  { s with deb := deb, qh := qh, inputs := inputs, res := res }

section
variable (s : State P) (d : Vector (BitVec P.debW) P.numButtons) (q : Vector (BitVec 4) Config.numEncoders)
  (l : List Input) (r : Option (BitVec 2))

@[simp] theorem State.time_withUnread (ent : Entity) : (s.withUnread d q l r).time ent = s.time ent := by
  cases ent <;> rfl

theorem State.setTime_withUnread (ent : Entity) (u : TimeOfDay) :
    (s.withUnread d q l r).setTime ent u = (s.setTime ent u).withUnread d q l r := by
  cases ent <;> rfl

theorem State.formatPass_withUnread (mode : Mode) :
    (s.withUnread d q l r).formatPass mode = (s.formatPass mode).withUnread d q l r := by
  unfold State.formatPass
  rw [State.time_withUnread]
  rfl

theorem State.advance_withUnread (mode : Mode) :
    (s.withUnread d q l r).advance mode = (s.advance mode).withUnread d q l r := by
  unfold State.advance
  split
  · next hlast =>
    rw [if_pos (show s.seqIdx = 4 from hlast)]
    exact State.formatPass_withUnread { s with seqIdx := 0 } d q l r mode
  · next hlast => rw [if_neg (show ¬ s.seqIdx = 4 from hlast)]; rfl

theorem State.sequencerStep_withUnread (dwell blank : Nat) (mode : Mode) :
    (s.withUnread d q l r).sequencerStep dwell blank mode = (s.sequencerStep dwell blank mode).withUnread d q l r := by
  let v : State P := s.withUnread d q l r
  have hadvance := State.advance_withUnread { s with seqCnt := 0, seqPh := .dwell } d q l r mode
  rcases s.sequencerStep_cases dwell blank mode with
    ⟨hp, hcnt, e⟩ | ⟨hp, hcnt, e⟩ | ⟨hp, hcnt, hb, e⟩ | ⟨⟨hp, hcnt, rfl⟩ | ⟨hp, hcnt⟩, e⟩ <;> rw [e]
  · exact State.sequencerStep_dwell_on (s := v) hp hcnt blank mode
  · exact State.sequencerStep_blank_on (s := v) hp hcnt dwell mode
  · exact State.sequencerStep_dwell_to_blank (s := v) hp hcnt hb mode
  · exact (State.sequencerStep_dwell_advance (s := v) hp hcnt mode).trans hadvance
  · exact (State.sequencerStep_blank_advance (s := v) hp hcnt dwell mode).trans hadvance

end

/-- An operation that samples nothing behaves alike whatever the histories, the inputs and the result port hold. -/
theorem exec_withUnread {i : Instr} {s t : State} (hdeb : ∀ k lvl, i ≠ .debSample k lvl)
    (hqdec : ∀ e raw, i ≠ .qdecStep e raw) (h : exec i s = .next t) (d : Vector (BitVec Config.debW) Config.numButtons)
    (q : Vector (BitVec 4) Config.numEncoders) (l : List Input) (r : Option (BitVec 2)) :
    exec i (s.withUnread d q l r) = .next (t.withUnread d q l t.res) := by
  have same {u : State} (hu : exec i s = .next u)
      (hread : exec i (s.withUnread d q l r) = .next (u.withUnread d q l u.res)) :
      exec i (s.withUnread d q l r) = .next (t.withUnread d q l t.res) := exec_next_inj hu h ▸ hread
  cases i with
  | nop => exact same (exec_nop s) rfl
  | debSample k lvl => exact absurd rfl (hdeb k lvl)
  | qdecStep e raw => exact absurd rfl (hqdec e raw)
  | tbTick =>
    rcases exec_tbTick_cases s with ⟨hen, e⟩ | ⟨hen, e⟩
    · exact same e (exec_tbTick_accepted hen)
    · exact same e (exec_tbTick_suspended hen)
  | tbEn b => exact same (exec_tbEn b s) rfl
  | edMin ent st =>
    obtain ⟨c, hc, -⟩ := exec_edMin_next h
    refine same (exec_edMin_of_some hc ent s) ((exec_edMin_of_some hc ent _).trans ?_)
    rw [State.time_withUnread, State.setTime_withUnread]; rfl
  | edHour ent st =>
    obtain ⟨c, hc, -⟩ := exec_edHour_next h
    refine same (exec_edHour_of_some hc ent s) ((exec_edHour_of_some hc ent _).trans ?_)
    rw [State.time_withUnread, State.setTime_withUnread]; rfl
  | edMer ent =>
    refine same (exec_edMer ent s) ((exec_edMer ent _).trans ?_)
    rw [State.time_withUnread, State.setTime_withUnread]; rfl
  | alTen => exact same (exec_alTen s) rfl
  | alSnooze =>
    rcases exec_alSnooze_cases s with ⟨hring, e⟩ | ⟨hring, e⟩
    · exact same e (exec_alSnooze_ringing hring)
    · exact same e (exec_alSnooze_quiet hring)
  | alDismiss =>
    rcases exec_alDismiss_cases s with ⟨hring, e⟩ | ⟨hring, e⟩
    · exact same e (exec_alDismiss_ringing hring)
    · exact same e (exec_alDismiss_quiet hring)
  | fmt mode => exact same (exec_fmt mode s) ((exec_fmt mode _).trans (by rw [State.formatPass_withUnread]; rfl))
  | muxStep mode =>
    exact same (exec_muxStep mode s) ((exec_muxStep mode _).trans (by rw [State.sequencerStep_withUnread]; rfl))

/-- An operation that samples nothing writes no history and no input. -/
theorem eq_withUnread_of_exec {i : Instr} {s t : State} (hdeb : ∀ k lvl, i ≠ .debSample k lvl)
    (hqdec : ∀ e raw, i ≠ .qdecStep e raw) (h : exec i s = .next t) :
    t = t.withUnread s.deb s.qh s.inputs t.res :=
  exec_next_inj h (exec_withUnread hdeb hqdec h s.deb s.qh s.inputs s.res)

/-- An operation samples a button, samples an encoder, or samples nothing. -/
theorem sampling_cases (i : Instr) :
    (∃ k lvl, i = .debSample k lvl) ∨ (∃ e raw, i = .qdecStep e raw) ∨
      ((∀ k lvl, i ≠ .debSample k lvl) ∧ ∀ e raw, i ≠ .qdecStep e raw) := by
  cases i with
  | debSample k lvl => exact .inl ⟨k, lvl, rfl⟩
  | qdecStep e raw => exact .inr (.inl ⟨e, raw, rfl⟩)
  | _ => exact .inr (.inr ⟨nofun, nofun⟩)

/-- The inputs are no operation's to read or to write (30_encoding.md R65). -/
theorem exec_withInputs {i : Instr} {s t : State} (h : exec i s = .next t) (l : List Input) :
    exec i (s.withInputs l) = .next (t.withInputs l) := by
  rcases sampling_cases i with ⟨k, lvl, rfl⟩ | ⟨e, raw, rfl⟩ | ⟨hdeb, hqdec⟩
  · obtain ⟨hk, rfl⟩ := exec_debSample_next h
    exact exec_debSample_of_lt hk lvl _
  · obtain rfl := exec_next_inj h (exec_qdecStep e raw s)
    exact exec_qdecStep e raw _
  · calc exec i (s.withInputs l)
        = .next (t.withUnread s.deb s.qh l t.res) := exec_withUnread hdeb hqdec h s.deb s.qh l s.res
      _ = .next (t.withInputs l) :=
        congrArg (fun u => Host.Outcome.next (State.withInputs u l)) (eq_withUnread_of_exec hdeb hqdec h).symm

theorem exec_inputs {i : Instr} {s t : State} (h : exec i s = .next t) : t.inputs = s.inputs := by
  have ht : t = t.withInputs s.inputs := exec_next_inj h (exec_withInputs h s.inputs)
  rw [ht, State.withInputs_inputs]

/-! ### Runs over legal words -/

/-- Legal words stand for operations that are performed from every state, and a run that finds the words presented
performs just them and goes on with what is presented after them (20_memory.md R57, 30_encoding.md R65). -/
theorem run_of_legal {ws : List Word} (hlegal : ∀ w ∈ ws, Legal w) (s : State) :
    ∃ is t, ws.map decode = is.map .ok ∧ execAll is s = .next t ∧ t.inputs = s.inputs ∧
      ∀ k rest, Host.Core.run Sys2Proof.core (ws.length + k) (s.withInputs (ws.map .word ++ rest)) =
        Host.Core.run Sys2Proof.core k (t.withInputs rest) := by
  induction ws generalizing s with
  | nil => exact ⟨[], s, rfl, rfl, rfl, fun k rest => by simp⟩
  | cons w ws ih =>
    obtain ⟨i, hi⟩ := hlegal w (by simp)
    obtain ⟨m, hm⟩ := exec_of_broken_none (decode_broken hi) s
    obtain ⟨is, t, hdecode, hall, hinputs, hrun⟩ := ih (fun v hv => hlegal v (by simp [hv])) m
    refine ⟨i :: is, t, by simp [hi, hdecode], by rw [execAll_cons_of_next hm, hall], hinputs.trans (exec_inputs hm),
      fun k rest => ?_⟩
    have hstep : step (s.withInputs ((w :: ws).map .word ++ rest)) = .next (m.withInputs (ws.map .word ++ rest)) :=
      (step_op rfl hi).trans (exec_withInputs hm _)
    rw [List.length_cons, Nat.add_right_comm, run_succ_of_next hstep, hrun]

end Sys2Proof.Machine

open Sys2Proof Sys2Proof.Machine

/-- Settles O8. -/
theorem stepRunsTheDecodedWord : Obligations.StepRunsTheDecodedWord :=
  fun _ _ _ _ hinputs hdecode => step_op hinputs hdecode

/-- Settles O9: the step's outcome is a refusal, on which the port carries 0b00. -/
theorem stepRefusesAReservedWord : Obligations.StepRefusesAReservedWord := by
  unfold Obligations.StepRefusesAReservedWord
  intro s w rest why hinputs hdecode
  rw [step_reserved hinputs hdecode]
  exact ⟨rfl, rfl⟩

/-- Settles O10: without input the step is refused, and any other step is one of the two cases of `step_next_cases`. -/
theorem everyStepTakesOnePresentedEvent : Obligations.EveryStepTakesOnePresentedEvent := by
  unfold Obligations.EveryStepTakesOnePresentedEvent
  refine ⟨fun s hnil => ?_, fun s t h => step_next_cases h⟩
  rw [step_nil hnil]
  exact ⟨rfl, rfl⟩

/-- Settles O11: the state after a reset is a power-up state, whose fields are read off. -/
theorem stepTakesReset : Obligations.StepTakesReset := by
  unfold Obligations.StepTakesReset
  intro s rest hinputs
  refine ⟨s.takeReset rest, step_rst hinputs, rfl, rfl, rfl, rfl, rfl, rfl, rfl, fun i => ?_, fun e => ?_, ?_,
    rfl, rfl, rfl, rfl, rfl, rfl⟩
  · simp [State.takeReset, State.powerUp, Vector.get_eq_getElem]
  · simp [State.takeReset, State.powerUp, Vector.get_eq_getElem]
  · show ∀ k : Fin 5, (#v[0x00, 0x00, 0x00, 0x00, 0x00] : Vector Byte 5).get k = 0x00
    decide

/-- Settles O12, by reading off the fields of the power-up state. -/
theorem resetStateIsTheResetSummary : Obligations.ResetStateIsTheResetSummary := by
  unfold Obligations.ResetStateIsTheResetSummary
  refine ⟨rfl, rfl, rfl, rfl, rfl, rfl, rfl, fun i => ?_, fun e => ?_, ?_, rfl, rfl, rfl⟩
  · simp [State.reset, State.powerUp, Vector.get_eq_getElem]
  · simp [State.reset, State.powerUp, Vector.get_eq_getElem]
  · decide

/-- Settles O13: the run over the words, with nothing presented after them. -/
theorem runsComposeTheOperations : Obligations.RunsComposeTheOperations := by
  unfold Obligations.RunsComposeTheOperations
  intro s ws hlegal
  obtain ⟨is, t, hdecode, hall, hinputs, hrun⟩ := run_of_legal hlegal (s.presenting [])
  have hdone : t.withInputs [] = t := congrArg (fun l => t.withInputs l) hinputs.symm
  refine ⟨is, t, hdecode, ?_, hall, hinputs⟩
  calc Host.Core.run Sys2Proof.core ws.length (s.presenting ws)
      = Host.Core.run Sys2Proof.core 0 (t.withInputs []) := by rw [← hrun, List.append_nil]; rfl
    _ = .next t := by rw [run_zero, hdone]

/-- Settles O14: the run reaches the reserved word, whose refusal ends it whatever fuel is left. -/
theorem refusalMarksTheWholeRun : Obligations.RefusalMarksTheWholeRun := by
  unfold Obligations.RefusalMarksTheWholeRun
  intro s before after w why k hlegal hdecode hk
  obtain ⟨is, t, -, -, -, hrun⟩ := run_of_legal hlegal s
  obtain ⟨fuel, rfl⟩ : ∃ fuel, k = before.length + (fuel + 1) := ⟨k - before.length - 1, by omega⟩
  calc Host.Core.run Sys2Proof.core (before.length + (fuel + 1)) (s.presenting (before ++ w :: after))
      = Host.Core.run Sys2Proof.core (fuel + 1) (t.withInputs ((w :: after).map .word)) := by
        rw [← hrun, State.presenting, List.map_append]
    _ = .refused (.reserved why) := run_succ_of_refused (step_reserved rfl hdecode) fuel

end

section
/-! The Debounce Engine and the Quadrature Decoder over streams of samples (40_debounce.md R91 to R94, 41_quadrature.md
R102 to R108). -/

namespace Sys2Proof.Machine

/-! ### Debounce histories -/

/-- A history after a stream of samples, the newest last. -/
def debounceHist (hist : BitVec Config.debW) (xs : List (BitVec 1)) : BitVec Config.debW :=
  xs.foldl (debounceShift Config.params) hist

theorem debounceHist_append (hist : BitVec Config.debW) (xs ys : List (BitVec 1)) :
    debounceHist hist (xs ++ ys) = debounceHist (debounceHist hist xs) ys := List.foldl_append

/-- Below the pad, bit `k` of a history is the sample `k` places before the newest, or where the stream is not that long
an older bit moved up (40_debounce.md R90, R91). -/
theorem debounceHist_getLsbD (hist : BitVec Config.debW) (xs : List (BitVec 1)) {k : Nat} (hk : k < 13) :
    (debounceHist hist xs).getLsbD k =
      (xs.reverse[k]?.map (·.getLsbD 0)).getD (hist.getLsbD (k - xs.length)) := by
  induction xs using List.reverseRecOn generalizing k with
  | nil => rfl
  | append_singleton xs x ih =>
    have hshift := debounceShift_getLsbD (debounceHist hist xs) x k (by omega)
    rw [debounceHist_append, List.reverse_append]
    refine hshift.trans ?_
    cases k with
    | zero => rfl
    | succ k => simp [hk, ih (k := k) (by omega)]

/-- The pad bits of a history are 1 from its first sample on (40_debounce.md R92). -/
theorem debounceHist_pad (hist : BitVec Config.debW) {xs : List (BitVec 1)} (hxs : xs ≠ []) {k : Nat} (h13 : 13 ≤ k)
    (hk : k < 16) : (debounceHist hist xs).getLsbD k = true := by
  rw [← List.dropLast_append_getLast hxs, debounceHist_append]
  refine (debounceShift_getLsbD _ _ k hk).trans ?_
  rw [if_neg (by omega), if_neg (by omega)]

theorem level_eq_one_iff (x : BitVec 1) : x = 1 ↔ x.getLsbD 0 = true := by revert x; decide

theorem level_eq_zero_iff (x : BitVec 1) : x = 0 ↔ x.getLsbD 0 = false := by revert x; decide

/-- A stream of DEB_N samples ends in a match exactly when all are low and the one before them was high
(40_debounce.md R93). -/
theorem pressed_debounceHist_iff (hist : BitVec Config.debW) {lows : List (BitVec 1)} (hlen : lows.length = debN) :
    pressed Config.params (debounceHist hist lows) = true ↔ hist.getLsbD 0 = true ∧ ∀ x ∈ lows, x = 0 := by
  have hne : lows ≠ [] := by
    rintro rfl
    nomatch hlen
  have hsettled : (debounceHist hist lows).getLsbD 12 = hist.getLsbD 0 := by
    rw [debounceHist_getLsbD hist lows (by omega), List.getElem?_eq_none (by simp [hlen]), hlen]
    rfl
  have hlt {k : Nat} {x : BitVec 1} (hx : lows.reverse[k]? = some x) : k < 12 := by
    have := (List.getElem?_eq_some_iff.1 hx).1
    simpa [hlen] using this
  have hlow {k : Nat} {x : BitVec 1} (hx : lows.reverse[k]? = some x) :
      (debounceHist hist lows).getLsbD k = x.getLsbD 0 := by
    rw [debounceHist_getLsbD hist lows ((hlt hx).trans (by omega)), hx]
    rfl
  rw [pressed_iff]
  constructor
  · intro h
    refine ⟨hsettled.symm.trans (h 12 (by omega)), fun x hx => ?_⟩
    obtain ⟨k, hk⟩ := List.mem_iff_getElem?.1 (List.mem_reverse.2 hx)
    rw [level_eq_zero_iff, ← hlow hk, h k ((hlt hk).trans (by omega))]
    simpa using hlt hk
  · rintro ⟨hhigh, hzero⟩ k hk
    rcases lt_trichotomy k 12 with h12 | rfl | h12
    · obtain ⟨x, hx⟩ : ∃ x, lows.reverse[k]? = some x := by
        rw [List.getElem?_eq_getElem (by simpa [hlen] using h12)]
        exact ⟨_, rfl⟩
      have hx0 : x = 0 := hzero x (List.mem_reverse.1 (List.mem_of_getElem? hx))
      rw [hlow hx, (level_eq_zero_iff x).1 hx0]
      simpa using h12
    · exact hsettled.trans hhigh
    · rw [debounceHist_pad hist hne h12 hk]
      simpa using h12.le

/-- A stream of samples of one button leaves its history after the stream, and the last one reports a match. -/
theorem execAll_debSamples {i : BitVec 4} (hi : i.toNat < Config.numButtons) (s : State) (xs : List (BitVec 1)) :
    ∃ t, execAll (xs.map (.debSample i)) s = .next t ∧
      t.deb.get ⟨i.toNat, hi⟩ = debounceHist (s.deb.get ⟨i.toNat, hi⟩) xs ∧
      (xs ≠ [] → t.res = some (pressedCode (pressed Config.params (debounceHist (s.deb.get ⟨i.toNat, hi⟩) xs)))) := by
  induction xs using List.reverseRecOn with
  | nil => exact ⟨s, rfl, rfl, fun h => absurd rfl h⟩
  | append_singleton xs x ih =>
    obtain ⟨t, ht, hhist, -⟩ := ih
    have hall := execAll_cons_of_next (exec_debSample_of_lt hi x t) []
    refine ⟨_, by rw [List.map_append, execAll_append_of_next ht]; exact hall, ?_, fun _ => ?_⟩
    · rw [debounceHist_append, ← hhist]
      exact State.setDeb_get_self _ _ _
    · rw [debounceHist_append, ← hhist]
      rfl

theorem pressedCode_eq_pressed_iff (p : Bool) : some (pressedCode p) = some 0b01 ↔ p = true := by
  cases p <;> decide

/-! ### Encoder histories -/

@[simp] theorem quadratureShift_low (hist : BitVec 4) (raw : BitVec 2) :
    (quadratureShift hist raw).extractLsb' 0 2 = raw := by
  revert hist raw; decide

/-- Two samples fill a history (41_quadrature.md R106). -/
theorem quadratureShift_quadratureShift (hist : BitVec 4) (a b : BitVec 2) :
    quadratureShift (quadratureShift hist a) b = a ++ b := by
  rw [quadratureShift_eq, quadratureShift_low]

/-- A stream of samples of one encoder leaves its history after the stream, and the last one reports its step. -/
theorem execAll_qdecSteps (e : Fin 2) (s : State) (xs : List (BitVec 2)) :
    ∃ t, execAll (xs.map (.qdecStep e)) s = .next t ∧ t.qh.get e = xs.foldl quadratureShift (s.qh.get e) ∧
      (xs ≠ [] → t.res = some (stepCode (qdecTable (xs.foldl quadratureShift (s.qh.get e))))) := by
  induction xs using List.reverseRecOn with
  | nil => exact ⟨s, rfl, rfl, fun h => absurd rfl h⟩
  | append_singleton xs x ih =>
    obtain ⟨t, ht, hhist, -⟩ := ih
    have hall := execAll_cons_of_next (exec_qdecStep e x t) []
    refine ⟨_, by rw [List.map_append, execAll_append_of_next ht]; exact hall, ?_, fun _ => ?_⟩
    · rw [List.foldl_append, ← hhist]
      exact State.setQh_get_self _ _ _
    · rw [List.foldl_append, ← hhist]
      rfl

theorem execAll_next_inj {is : List Instr} {s t u : State} (h : execAll is s = .next t) (hu : execAll is s = .next u) :
    t = u := Host.Outcome.next.inj (h.symm.trans hu)

/-- The net movement of a stream is the step of its first sample and the net movement of the rest. -/
theorem netStep_cons (e : Fin 2) (raw : BitVec 2) (rest : List (BitVec 2)) (s : State) :
    ∃ t, t.qh.get e = quadratureShift (s.qh.get e) raw ∧
      netStep e (raw :: rest) s = qdecTable (quadratureShift (s.qh.get e) raw) + netStep e rest t := by
  let hist := quadratureShift (s.qh.get e) raw
  have hstep : (stepVal (stepCode (qdecTable hist))).getD 0 = qdecTable hist := by
    rw [stepVal_stepCode_qdecTable]
    rfl
  exact ⟨(s.setQh e hist).drive (stepCode (qdecTable hist)), State.setQh_get_self s e hist,
    congrArg (fun d => d + netStep e rest _) hstep⟩

/-- A move and the move back cancel: the table has opposite steps for them (41_quadrature.md R101, R104). -/
theorem qdecTable_there_and_back (hist : BitVec 4) (raw : BitVec 2) :
    qdecTable (quadratureShift hist raw) +
      qdecTable (quadratureShift (quadratureShift hist raw) (hist.extractLsb' 0 2)) = 0 := by
  revert hist raw; decide

theorem netStep_glitches (e : Fin 2) (c : BitVec 2) (glitches : List (BitVec 2)) (s : State)
    (hc : (s.qh.get e).extractLsb' 0 2 = c) : netStep e (glitches.flatMap fun g => [g, c]) s = 0 := by
  induction glitches generalizing s with
  | nil => rfl
  | cons g glitches ih =>
    obtain ⟨t, ht, hout⟩ := netStep_cons e g (c :: glitches.flatMap fun g => [g, c]) s
    obtain ⟨u, hu, hback⟩ := netStep_cons e c (glitches.flatMap fun g => [g, c]) t
    have hrest := ih u (by rw [hu, quadratureShift_low])
    have hcancel := qdecTable_there_and_back (s.qh.get e) g
    rw [hc] at hcancel
    rw [ht] at hback
    rw [List.flatMap_cons, List.cons_append, List.cons_append, List.nil_append, hout, hback, hrest]
    omega

end Sys2Proof.Machine

open Sys2Proof Sys2Proof.Machine

/-- Settles O19: the bits of the one history that is written, the match against DEB_MATCH, and the frame. -/
theorem debSampleShiftsAndReports : Obligations.DebSampleShiftsAndReports := by
  unfold Obligations.DebSampleShiftsAndReports
  intro s i lvl h
  have hself := State.setDeb_get_self s ⟨i.toNat, h⟩ (debounceShift Config.params (s.deb.get ⟨i.toNat, h⟩) lvl)
  have hbit := debounceShift_getLsbD (s.deb.get ⟨i.toNat, h⟩) lvl
  refine ⟨_, exec_debSample_of_lt h lvl s, rfl, fun j hj => ?_, ?_, fun k hk1 hk => ?_, fun k hk hk15 => ?_, ?_⟩
  · exact State.setDeb_get_other s ⟨i.toNat, h⟩ j _ fun hc => hj (congrArg Fin.val hc)
  · exact (congrArg (·.getLsbD 0) hself).trans (hbit 0 (by omega))
  · refine (congrArg (·.getLsbD k) hself).trans ((hbit k (by omega)).trans ?_)
    rw [if_neg (by omega), if_pos (by omega)]
  · refine (congrArg (·.getLsbD k) hself).trans ((hbit k (by omega)).trans ?_)
    rw [if_neg (by omega), if_neg (by omega)]
  · rw [State.drive_res, State.drive_deb, hself, pressedCode_eq, pressed, debMatch_eq]
    simp

/-- Settles O20: the decoder answers the word of an operation by the constraint that the operation breaks. -/
theorem excludedOperandsAreRefused : Obligations.ExcludedOperandsAreRefused := by
  unfold Obligations.ExcludedOperandsAreRefused
  intro s i lvl ent hi
  have hge : ¬ i.toNat < Config.numButtons := Nat.not_lt.2 hi
  have hbutton : (Instr.debSample i lvl).broken = some .buttonIndexOutOfRange := if_neg hge
  refine ⟨exec_debSample_of_ge hge lvl s, ?_, exec_edMin_of_none rfl ent s, ?_,
    exec_edHour_of_none rfl ent s, ?_⟩
  · rw [decode_encode, hbutton]
  · exact decode_encode (.edMin ent 0b10)
  · exact decode_encode (.edHour ent 0b10)

/-- Settles O21: the newest DEB_N samples shift the one before them to the place above the low run. -/
theorem pressIsLowRunAfterSettledHigh : Obligations.PressIsLowRunAfterSettledHigh := by
  unfold Obligations.PressIsLowRunAfterSettledHigh
  intro s i before highs lows hi hhighs hlows
  obtain ⟨x, rfl⟩ := List.length_eq_one_iff.1 hhighs
  obtain ⟨t, ht, -, hres⟩ := execAll_debSamples hi s (before ++ [x] ++ lows)
  refine ⟨t, ht, ?_⟩
  have hsettled (hist : BitVec Config.debW) : (debounceHist hist (before ++ [x])).getLsbD 0 = x.getLsbD 0 := by
    rw [debounceHist_getLsbD _ _ (by omega)]
    simp
  rw [hres (by simp), pressedCode_eq_pressed_iff, debounceHist_append, pressed_debounceHist_iff _ hlows, hsettled,
    ← level_eq_one_iff, List.forall_mem_singleton]

/-- Settles O22: after a press the newest DEB_N bits are low, so the high bit that the next press needs is a new sample
with DEB_N samples after it. -/
theorem oneEventPerPress : Obligations.OneEventPerPress := by
  unfold Obligations.OneEventPerPress
  intro s t u i lvl more ht htres hmore hu hures
  obtain ⟨hi, ht'⟩ := exec_debSample_next ht
  have hpress : pressed Config.params (t.deb.get ⟨i.toNat, hi⟩) = true := by
    rw [ht', State.drive_res, pressedCode_eq_pressed_iff] at htres
    rw [ht']
    exact (congrArg _ (State.setDeb_get_self s ⟨i.toNat, hi⟩ _)).trans htres
  obtain ⟨u', hu', -, hres⟩ := execAll_debSamples hi t more
  obtain rfl := execAll_next_inj hu hu'
  rw [hres hmore, pressedCode_eq_pressed_iff] at hures
  have hhigh := (pressed_iff _).1 hures 12 (by omega)
  rw [debounceHist_getLsbD _ _ (by omega)] at hhigh
  have hpos : 0 < more.length := List.length_pos_iff.2 hmore
  cases hx : more.reverse[12]? with
  | none =>
    have hlow := (pressed_iff _).1 hpress (12 - more.length) (by omega)
    rw [hx] at hhigh
    have hcontra := hlow.symm.trans hhigh
    simp only [decide_eq_decide] at hcontra
    omega
  | some x =>
    rw [hx] at hhigh
    have hlen : 12 < more.length := by simpa using (List.getElem?_eq_some_iff.1 hx).1
    obtain rfl : x = 1 := (level_eq_one_iff x).2 hhigh
    exact ⟨hlen, List.mem_reverse.1 (List.mem_of_getElem? hx)⟩

/-- Settles O23. -/
theorem qdecStepShiftsAndDecodes : Obligations.QdecStepShiftsAndDecodes := by
  unfold Obligations.QdecStepShiftsAndDecodes
  intro s e raw
  have hself := State.setQh_get_self s e (quadratureShift (s.qh.get e) raw)
  refine ⟨_, exec_qdecStep e raw s, rfl, fun j hj => ?_, ?_, ?_⟩
  · exact State.setQh_get_other s e j _ hj
  · exact hself.trans (quadratureShift_eq _ _)
  · rw [State.drive_res, State.drive_qh, hself, stepCode_qdecTable]

/-- Settles O24: the two samples of a half-cycle make the two codes `start a` and `a b`. -/
theorem halfCyclesReportOneStep : Obligations.HalfCyclesReportOneStep := by
  unfold Obligations.HalfCyclesReportOneStep
  intro s e start a b r₁ r₂ hmem hstart
  have hcodes : stepCode (qdecTable (start ++ a)) = r₁ ∧ stepCode (qdecTable (a ++ b)) = r₂ := by
    clear hstart
    revert start a b r₁ r₂
    decide
  refine ⟨_, _, exec_qdecStep e a s, ?_, exec_qdecStep e b _, ?_⟩
  · rw [State.drive_res, quadratureShift_eq, hstart, hcodes.1]
  · rw [State.drive_res, State.drive_qh, State.setQh_get_self, quadratureShift_quadratureShift, hcodes.2]

/-- Settles O25. -/
theorem glitchesCancel : Obligations.GlitchesCancel :=
  fun s e c glitches hc _ => netStep_glitches e c glitches s hc

/-- Settles O26: two samples overwrite the history; the first one of 01 reports +1 after 00 and nothing after 11. -/
theorem onlyTheFirstStepSeesTheDraw : Obligations.OnlyTheFirstStepSeesTheDraw := by
  unfold Obligations.OnlyTheFirstStepSeesTheDraw
  constructor
  · intro s s' t t' e a b more ht ht'
    obtain ⟨u, hu, hhist, hres⟩ := execAll_qdecSteps e s (a :: b :: more)
    obtain ⟨u', hu', hhist', hres'⟩ := execAll_qdecSteps e s' (a :: b :: more)
    obtain rfl := execAll_next_inj ht hu
    obtain rfl := execAll_next_inj ht' hu'
    have hfold : (a :: b :: more).foldl quadratureShift (s.qh.get e) =
        (a :: b :: more).foldl quadratureShift (s'.qh.get e) := by
      simp only [List.foldl_cons, quadratureShift_quadratureShift]
    exact ⟨by rw [hres (by simp), hres' (by simp), hfold], by rw [hhist, hhist', hfold]⟩
  · intro e
    refine ⟨{ State.reset with qh := Vector.replicate 2 0b00 }, { State.reset with qh := Vector.replicate 2 0b11 },
      _, _, 0b01, rfl, exec_qdecStep e _ _, exec_qdecStep e _ _, ?_⟩
    have hget (q : BitVec 4) : (Vector.replicate 2 q).get e = q := by simp [Vector.get_eq_getElem]
    simp only [State.drive_res, hget]
    decide

/-- Settles O59: the code reads back as the step it stands for, so both edits take it. -/
theorem decoderResultFeedsTheEdits : Obligations.DecoderResultFeedsTheEdits := by
  unfold Obligations.DecoderResultFeedsTheEdits
  intro s t u e raw r ent ht hr
  obtain rfl := exec_next_inj ht (exec_qdecStep e raw s)
  obtain rfl := Option.some.inj hr
  have hval := stepVal_stepCode_qdecTable (quadratureShift (s.qh.get e) raw)
  refine ⟨_, _, exec_edMin_of_some hval ent u, exec_edHour_of_some hval ent u, ?_⟩
  rw [State.time_drive, State.time_setTime, State.drive_qh, State.setQh_get_self]
  exact TimeOfDay.editMinutes_m _ _

end

section
/-! The clock: the places of the cycle, the tick over many seconds, the edits (42_timebase.md R110 to R118, R127 to
R129). -/

namespace Sys2Proof.Machine

/-! ### The places of the cycle (42_timebase.md R129) -/

theorem TimeOfDay.place_lt {t : TimeOfDay} (ht : t.InRange) : t.place < 86400 := by
  obtain ⟨h1, h12, hm, hs⟩ := ht
  cases hmer : t.mer <;> simp only [TimeOfDay.place, hmer] <;> omega

/-- The first half of the cycle is PM. -/
theorem TimeOfDay.mer_eq_pm_iff {t : TimeOfDay} (ht : t.InRange) : t.mer = .pm ↔ t.place < 43200 := by
  obtain ⟨h1, h12, hm, hs⟩ := ht
  cases hmer : t.mer <;> simp only [TimeOfDay.place, hmer, reduceCtorEq, true_iff, false_iff] <;> omega

theorem TimeOfDay.eq_of_place_eq {t u : TimeOfDay} (ht : t.InRange) (hu : u.InRange) (h : t.place = u.place) :
    t = u := by
  have hmer : t.mer = u.mer := by
    have hpm : t.mer = .pm ↔ u.mer = .pm := by rw [TimeOfDay.mer_eq_pm_iff ht, TimeOfDay.mer_eq_pm_iff hu, h]
    by_contra hne
    rw [Meridiem.eq_flip_of_ne hne] at hpm
    revert hpm
    cases u.mer <;> decide
  obtain ⟨h1, h12, hm, hs⟩ := ht
  obtain ⟨h1', h12', hm', hs'⟩ := hu
  simp only [TimeOfDay.place, hmer] at h
  refine TimeOfDay.ext_of_fields (BitVec.eq_of_toNat_eq ?_) (BitVec.eq_of_toNat_eq ?_) (BitVec.eq_of_toNat_eq ?_) hmer
  all_goals omega

/-- The time at a place. -/
def timeAt (n : Nat) : TimeOfDay where
  h := BitVec.ofNat 4 (n / 3600 % 12 + 1)
  m := BitVec.ofNat 6 (n / 60 % 60)
  s := BitVec.ofNat 6 (n % 60)
  mer := if n < 43200 then .pm else .am

theorem timeAt_spec {n : Nat} (hn : n < 86400) : (timeAt n).InRange ∧ (timeAt n).place = n := by
  have hh : (timeAt n).h.toNat = n / 3600 % 12 + 1 := Nat.mod_eq_of_lt (by omega)
  have hm : (timeAt n).m.toNat = n / 60 % 60 := Nat.mod_eq_of_lt (by omega)
  have hs : (timeAt n).s.toNat = n % 60 := Nat.mod_eq_of_lt (by omega)
  refine ⟨⟨by omega, by omega, by omega, by omega⟩, ?_⟩
  by_cases hpm : n < 43200
  · have hmer : (timeAt n).mer = .pm := if_pos hpm
    simp only [TimeOfDay.place, hh, hm, hs, hmer]
    omega
  · have hmer : (timeAt n).mer = .am := if_neg hpm
    simp only [TimeOfDay.place, hh, hm, hs, hmer]
    omega

/-! ### One tick, case by case -/

theorem TimeOfDay.tick_of_seconds_lt {t : TimeOfDay} (ht : t.InRange) (hs : t.s.toNat < 59) :
    t.tick = { t with s := t.s + 1 } := by
  rcases t.tick_cases ht with ⟨-, e⟩ | ⟨h59, -⟩ | ⟨h59, -⟩ | ⟨h59, -⟩
  · exact e
  all_goals omega

theorem TimeOfDay.tick_of_minutes_lt {t : TimeOfDay} (ht : t.InRange) (hs : t.s = 59) (hm : t.m.toNat < 59) :
    t.tick = { t with s := 0, m := t.m + 1 } := by
  have hs' : t.s.toNat = 59 := congrArg BitVec.toNat hs
  rcases t.tick_cases ht with ⟨h59, -⟩ | ⟨-, -, e⟩ | ⟨-, h59, -⟩ | ⟨-, h59, -⟩
  case inr.inl => exact e
  all_goals omega

theorem TimeOfDay.tick_of_hours_lt {t : TimeOfDay} (ht : t.InRange) (hs : t.s = 59) (hm : t.m = 59)
    (hh : t.h.toNat < 12) : t.tick = { t with s := 0, m := 0, h := t.h + 1 } := by
  have hs' : t.s.toNat = 59 := congrArg BitVec.toNat hs
  have hm' : t.m.toNat = 59 := congrArg BitVec.toNat hm
  rcases t.tick_cases ht with ⟨h59, -⟩ | ⟨-, h59, -⟩ | ⟨-, -, -, e⟩ | ⟨-, -, h12, -⟩
  case inr.inr.inl => exact e
  all_goals omega

theorem TimeOfDay.tick_of_twelve {t : TimeOfDay} (ht : t.InRange) (hs : t.s = 59) (hm : t.m = 59) (hh : t.h = 12) :
    t.tick = ⟨1, 0, 0, t.mer.flip⟩ := by
  have hs' : t.s.toNat = 59 := congrArg BitVec.toNat hs
  have hm' : t.m.toNat = 59 := congrArg BitVec.toNat hm
  have hh' : t.h.toNat = 12 := congrArg BitVec.toNat hh
  rcases t.tick_cases ht with ⟨h59, -⟩ | ⟨-, h59, -⟩ | ⟨-, -, h12, -⟩ | ⟨-, -, -, e⟩
  case inr.inr.inr => exact e
  all_goals omega

/-! ### Many ticks -/

/-- Ticks while enabled move the clock on through the cycle, one place each (42_timebase.md R129). -/
theorem execAll_ticks {s : State} (hen : s.tickEn = true) (hclk : s.clk.InRange) (n : Nat) :
    ∃ t, execAll (List.replicate n .tbTick) s = .next t ∧ t.clk.InRange ∧
      t.clk.place = (s.clk.place + n) % 86400 := by
  induction n generalizing s with
  | zero => exact ⟨s, rfl, hclk, by rw [Nat.add_zero, Nat.mod_eq_of_lt (TimeOfDay.place_lt hclk)]⟩
  | succ n ih =>
    obtain ⟨hrange, hplace⟩ := s.clk.tick_spec hclk
    obtain ⟨t, ht, htclk, htplace⟩ := ih (s := s.acceptTick.drive 0b00) hen hrange
    refine ⟨t, by rw [List.replicate_succ, execAll_cons_of_next (exec_tbTick_accepted hen), ht], htclk, ?_⟩
    rw [htplace, State.drive_clk, State.acceptTick_clk, hplace]
    omega

/-- A time in range at the place that many ticks on is where those ticks bring the clock. -/
theorem execAll_ticks_to {s : State} (hen : s.tickEn = true) (hclk : s.clk.InRange) {target : TimeOfDay}
    (htarget : target.InRange) {n : Nat} (hplace : target.place = (s.clk.place + n) % 86400) :
    ∃ t, execAll (List.replicate n .tbTick) s = .next t ∧ t.clk = target := by
  obtain ⟨t, ht, hrange, htplace⟩ := execAll_ticks hen hclk n
  exact ⟨t, ht, TimeOfDay.eq_of_place_eq hrange htarget (htplace.trans hplace.symm)⟩

/-- The minute carry is 60 places (42_timebase.md R128). -/
theorem TimeOfDay.minuteCarry_spec {t : TimeOfDay} (ht : t.InRange) :
    ({ t with m := t.m + 1 } : TimeOfDay).carryMinutes.carryHours.InRange ∧
      ({ t with m := t.m + 1 } : TimeOfDay).carryMinutes.carryHours.place = (t.place + 60) % 86400 := by
  obtain ⟨h1, h12, hm, hs⟩ := ht
  have hadd : (t.m + 1).toNat = t.m.toNat + 1 := sixty_succ (by omega)
  obtain ⟨hrange, hplace⟩ := TimeOfDay.carry_spec { t with m := t.m + 1 } ⟨h1, h12⟩ (by simp only [hadd]; omega) hs
  refine ⟨hrange, hplace.trans ?_⟩
  cases hmer : t.mer <;> simp only [TimeOfDay.place, hmer, hadd] <;> omega

/-- The hour carry's two cases: below 12 the hour counts on, from 12 it is 1 in the other meridiem (42_timebase.md
R110). -/
theorem TimeOfDay.hourCarry_cases {t : TimeOfDay} (ht : t.InRange) :
    (t.h.toNat < 12 ∧ ({ t with h := t.h + 1 } : TimeOfDay).carryHours = { t with h := t.h + 1 }) ∨
    (t.h.toNat = 12 ∧ ({ t with h := t.h + 1 } : TimeOfDay).carryHours = { t with h := 1, mer := t.mer.flip }) := by
  have hadd : (t.h + 1).toNat = t.h.toNat + 1 := hours_succ ht.2.1
  obtain hlt | heq : t.h.toNat < 12 ∨ t.h.toNat = 12 := Nat.lt_or_eq_of_le ht.2.1
  · refine .inl ⟨hlt, TimeOfDay.carryHours_of_ne fun h13 => ?_⟩
    have h13' : (t.h + 1).toNat = 13 := congrArg BitVec.toNat h13
    omega
  · exact .inr ⟨heq, TimeOfDay.carryHours_of_eq (BitVec.eq_of_toNat_eq (hadd.trans (congrArg Nat.succ heq)))⟩

/-- The hour carry is 3600 places (42_timebase.md R128). -/
theorem TimeOfDay.hourCarry_spec {t : TimeOfDay} (ht : t.InRange) :
    ({ t with h := t.h + 1 } : TimeOfDay).carryHours.InRange ∧
      ({ t with h := t.h + 1 } : TimeOfDay).carryHours.place = (t.place + 3600) % 86400 := by
  have hadd : (t.h + 1).toNat = t.h.toNat + 1 := hours_succ ht.2.1
  have o4 : (1 : BitVec 4).toNat = 1 := rfl
  rcases TimeOfDay.hourCarry_cases ht with ⟨hlt, e⟩ | ⟨heq, e⟩ <;> rw [e] <;> obtain ⟨h1, h12, hm, hs⟩ := ht
  · refine ⟨⟨by simp only [hadd]; omega, by simp only [hadd]; omega, hm, hs⟩, ?_⟩
    cases hmer : t.mer <;> simp only [TimeOfDay.place, hmer, hadd] <;> omega
  · refine ⟨⟨by simp only [o4]; omega, by simp only [o4]; omega, hm, hs⟩, ?_⟩
    cases hmer : t.mer <;> simp only [TimeOfDay.place, hmer, o4, Meridiem.flip] <;> omega

/-! ### The step codes of the edits -/

/-- The three step codes and their values (00_scope.md R13). -/
theorem stepVal_of_mem {st : BitVec 2} {d : Int} (h : (st, d) ∈ [(0b00#2, (0 : Int)), (0b01#2, 1), (0b11#2, -1)]) :
    stepVal st = some d := by
  simp only [List.mem_cons, Prod.mk.injEq, List.not_mem_nil, or_false] at h
  rcases h with ⟨rfl, rfl⟩ | ⟨rfl, rfl⟩ | ⟨rfl, rfl⟩ <;> rfl

end Sys2Proof.Machine

open Sys2Proof Sys2Proof.Machine

/-- Settles O27. -/
theorem nopChangesNothing : Obligations.NopChangesNothing := exec_nop

/-- Settles O28: each premise picks its case of the carry chain, and the comparison sees the time after it. -/
theorem acceptedTickCountsOneSecond : Obligations.AcceptedTickCountsOneSecond := by
  unfold Obligations.AcceptedTickCountsOneSecond
  intro s hen hclk
  refine ⟨_, exec_tbTick_accepted hen, rfl, fun hs => ?_, fun hs hm => ?_, fun hs hm hh => ?_, fun hs hm hh => ?_, ?_⟩
  · rw [State.drive_clk, State.acceptTick_clk, TimeOfDay.tick_of_seconds_lt hclk hs]
    exact ⟨sixty_succ (by omega), rfl, rfl, rfl⟩
  · rw [State.drive_clk, State.acceptTick_clk, TimeOfDay.tick_of_minutes_lt hclk hs hm]
    exact ⟨rfl, sixty_succ (by omega), rfl, rfl⟩
  · rw [State.drive_clk, State.acceptTick_clk, TimeOfDay.tick_of_hours_lt hclk hs hm hh]
    exact ⟨rfl, rfl, hours_succ (by omega), rfl⟩
  · rw [State.drive_clk, State.acceptTick_clk, TimeOfDay.tick_of_twelve hclk hs hm hh]
    exact ⟨rfl, rfl, rfl, Meridiem.flip_ne _⟩
  · rw [← TimeOfDay.eq_iff_fields]
    exact ringAfterTick_iff _ _ _ _

/-- Settles O29. -/
theorem suspendedTickIsDiscarded : Obligations.SuspendedTickIsDiscarded := fun _ hen => exec_tbTick_suspended hen

/-- Settles O30: the target is as many ticks on as its place is ahead of the clock's, modulo the cycle. -/
theorem ticksRunThroughOneCycle : Obligations.TicksRunThroughOneCycle := by
  unfold Obligations.TicksRunThroughOneCycle
  intro s target hen hclk htarget
  have hlt := TimeOfDay.place_lt hclk
  have hlt' := TimeOfDay.place_lt htarget
  refine ⟨?_, execAll_ticks_to hen hclk hclk (by omega)⟩
  obtain ⟨t, ht⟩ := execAll_ticks_to hen hclk htarget (n := (target.place + 86400 - s.clk.place) % 86400) (by omega)
  exact ⟨_, t, Nat.mod_lt _ (by omega), ht⟩

/-- Settles O31: the minute carry is 60 places of the cycle and the hour carry 3600. -/
theorem countingLawsOfTheTick : Obligations.CountingLawsOfTheTick := by
  unfold Obligations.CountingLawsOfTheTick
  intro s hen hclk
  obtain ⟨hminRange, hminPlace⟩ := TimeOfDay.minuteCarry_spec hclk
  obtain ⟨hhourRange, hhourPlace⟩ := TimeOfDay.hourCarry_spec hclk
  obtain ⟨t, ht, htclk⟩ := execAll_ticks_to hen hclk hhourRange hhourPlace
  refine ⟨execAll_ticks_to hen hclk hminRange hminPlace, t, ht, htclk, fun h12 => ?_⟩
  rcases TimeOfDay.hourCarry_cases hclk with ⟨hlt, -⟩ | ⟨-, e⟩
  · exact absurd hlt (by rw [h12]; decide)
  · rw [htclk, e]
    exact ⟨rfl, Meridiem.flip_ne _⟩

/-- Settles O33. -/
theorem edMinStepsTheMinutes : Obligations.EdMinStepsTheMinutes := by
  unfold Obligations.EdMinStepsTheMinutes
  intro s ent st d hst
  refine ⟨_, ((s.time ent).editMinutes d).m, exec_edMin_of_some (stepVal_of_mem hst) ent s,
    TimeOfDay.editMinutes_m _ d, ?_⟩
  cases ent <;> rfl

/-- Settles O34. -/
theorem edHourStepsTheHours : Obligations.EdHourStepsTheHours := by
  unfold Obligations.EdHourStepsTheHours
  intro s ent st d hst
  refine ⟨_, ((s.time ent).editHours d).h, exec_edHour_of_some (stepVal_of_mem hst) ent s,
    TimeOfDay.editHours_h _ d, ?_⟩
  cases ent <;> rfl

/-- Settles O38. -/
theorem placeNamesTheTime : Obligations.PlaceNamesTheTime :=
  ⟨fun _ _ => TimeOfDay.eq_of_place_eq, fun _ => TimeOfDay.place_lt, fun n hn => ⟨timeAt n, timeAt_spec hn⟩⟩

/-- Settles O55: after the tick the edit finds minutes 0 of 01:00:00 PM, before it minutes 59, which wrap with no
carry. -/
theorem tickAndEditDoNotCommute : Obligations.TickAndEditDoNotCommute := by
  unfold Obligations.TickAndEditDoNotCommute
  intro s hen hclk
  have hedit (u : State) := exec_edMin_of_some (show stepVal 0b01#2 = some 1 from rfl) .clk u
  have hen' : ((s.setTime .clk (s.clk.editMinutes 1)).drive 0b00).tickEn = true := hen
  refine ⟨_, _, (execAll_cons_of_next (exec_tbTick_accepted hen) _).trans (execAll_cons_of_next (hedit _) []), ?_,
    (execAll_cons_of_next (hedit s) _).trans (execAll_cons_of_next (exec_tbTick_accepted hen') []), ?_⟩
  · show s.clk.tick.editMinutes 1 = ⟨1, 1, 0, .pm⟩
    rw [hclk]
    decide
  · show (s.clk.editMinutes 1).tick = ⟨12, 1, 0, .am⟩
    rw [hclk]
    decide

end

section
/-! The alarm control: AL.TEN, the snooze and its second ringing (42_timebase.md R119 to R125). -/

namespace Sys2Proof.Machine

/-- A quiet, enabled alarm `d` ticks ahead of the clock, `d` at least 1 and within one cycle, rings at the `d`-th tick
and at none before (42_timebase.md R112, R129). -/
theorem execAll_ticks_rings_iff {s : State} {n d : Nat} (hen : s.tickEn = true) (halm : s.almEn = true)
    (hquiet : s.almRing = false) (hclk : s.clk.InRange) (halmRange : s.alm.InRange)
    (hahead : s.alm.place = (s.clk.place + d) % 86400) (hd : 1 ≤ d) (hcycle : d < 86400) (hn : n ≤ d) :
    ∃ t, execAll (List.replicate n .tbTick) s = .next t ∧ (t.almRing = true ↔ n = d) := by
  induction n generalizing s d with
  | zero => exact ⟨s, rfl, by simp [hquiet]; omega⟩
  | succ n ih =>
    obtain ⟨hrange, hplace⟩ := s.clk.tick_spec hclk
    have hexec := exec_tbTick_accepted hen
    have hring : (s.acceptTick.drive 0b00).almRing = true ↔ s.clk.tick = s.alm := by
      rw [State.drive_almRing, State.acceptTick_almRing, ringAfterTick_iff]
      simp [hquiet, halm]
    have hnow : s.clk.tick = s.alm ↔ d = 1 := by
      constructor
      · intro h
        rw [h] at hplace
        omega
      · rintro rfl
        exact TimeOfDay.eq_of_place_eq hrange halmRange (hplace.trans hahead.symm)
    by_cases hone : d = 1
    · obtain rfl : n = 0 := by omega
      exact ⟨_, execAll_cons_of_next hexec [], by rw [hring, hnow, hone]⟩
    · obtain ⟨t, ht, hiff⟩ := ih (s := s.acceptTick.drive 0b00) (d := d - 1) hen halm
        (Bool.eq_false_iff.2 fun h => hone (hnow.1 (hring.1 h))) hrange halmRange
        (by rw [State.drive_alm, State.acceptTick_alm, State.drive_clk, State.acceptTick_clk, hahead, hplace]; omega)
        (by omega) (by omega) (by omega)
      refine ⟨t, by rw [List.replicate_succ, execAll_cons_of_next hexec, ht], hiff.trans (by omega)⟩

end Sys2Proof.Machine

open Sys2Proof Sys2Proof.Machine

/-- Settles O36. -/
theorem alTenTogglesTheEnable : Obligations.AlTenTogglesTheEnable := exec_alTen

/-- Settles O37: the deferred time is in range and SNOOZE_OFFSET places on. -/
theorem alSnoozeDefersTheAlarm : Obligations.AlSnoozeDefersTheAlarm := by
  unfold Obligations.AlSnoozeDefersTheAlarm
  intro s
  refine ⟨fun hring halm => ?_, fun hquiet => by rw [exec_alSnooze_quiet hquiet, State.drive_eq]⟩
  obtain ⟨hrange, hplace⟩ := s.alm.defer_spec snoozeOffset (by decide) halm
  exact ⟨_, exec_alSnooze_ringing hring, rfl, hrange, hplace⟩

/-- Settles O40: the snooze leaves a quiet alarm `10 - j` ticks ahead of the clock. -/
theorem snoozeRingsOnceMore : Obligations.SnoozeRingsOnceMore := by
  unfold Obligations.SnoozeRingsOnceMore
  intro s j n hen halm hring hclk halmRange hplace hj hn
  obtain ⟨hrange, hdefer⟩ := s.alm.defer_spec snoozeOffset (by decide) halmRange
  let u : State := ({ s with almRing := false, alm := s.alm.defer snoozeOffset } : State).drive 0b00
  have hahead : u.alm.place = (u.clk.place + (10 - j)) % 86400 := by
    show (s.alm.defer snoozeOffset).place = (s.clk.place + (10 - j)) % 86400
    rw [hdefer, hplace, show snoozeOffset = 10 from rfl]
    omega
  obtain ⟨t, ht, hiff⟩ := execAll_ticks_rings_iff (s := u) hen halm rfl hclk hrange hahead (by omega) (by omega) hn
  exact ⟨t, by rw [execAll_cons_of_next (exec_alSnooze_ringing hring), ht], hiff⟩

/-- Settles O42: a tick keeps a ringing alarm ringing, and of the others only these two clear the flag. -/
theorem onlySnoozeOrDismissStopsRinging : Obligations.OnlySnoozeOrDismissStopsRinging := by
  unfold Obligations.OnlySnoozeOrDismissStopsRinging
  intro i s t h hring hquiet
  by_cases hi : i = .tbTick
  · subst hi
    exact absurd ((almRing_after_tbTick_iff h).2 (.inl hring)) (by simp [hquiet])
  · rcases almRing_of_ne_tbTick h hi with hkept | ⟨hcleared, -⟩
    · exact absurd (hkept.trans hring) (by simp [hquiet])
    · exact hcleared

end

section
/-! The display: what a format pass writes, the outputs, and the render cycle for any open lengths (43_display.md R143
to R154). -/

namespace Sys2Proof.Machine

variable {P : Params}

/-! ### Format passes and BLINK -/

/-- With BLINK consumed, format passes leave the colon alone (70_reset_and_hazards.md R187). -/
theorem execAll_fmts_of_no_blink {s t : State} {modes : List Mode} (hblink : s.blink = false)
    (h : execAll (modes.map .fmt) s = .next t) : t.colonOn = s.colonOn ∧ t.blink = false := by
  induction modes generalizing s with
  | nil =>
    obtain rfl := Host.Outcome.next.inj h
    exact ⟨rfl, hblink⟩
  | cons mode modes ih =>
    obtain ⟨u, hu, hrest⟩ := execAll_cons_next h
    obtain rfl := exec_next_inj hu (exec_fmt mode s)
    obtain ⟨hcolon, hdone⟩ := ih rfl hrest
    refine ⟨hcolon.trans ?_, hdone⟩
    rw [State.drive_colonOn, State.formatPass_colonOn, hblink, colonAfterPass, Bool.xor_false]

/-- Accepted ticks set BLINK and leave the colon alone (42_timebase.md R111). -/
theorem execAll_ticks_blink {s t : State} {n : Nat} (hen : s.tickEn = true) (hn : 1 ≤ n)
    (h : execAll (List.replicate n .tbTick) s = .next t) : t.colonOn = s.colonOn ∧ t.blink = true := by
  induction n, hn using Nat.le_induction generalizing s with
  | base =>
    obtain ⟨u, hu, hrest⟩ := execAll_cons_next h
    obtain rfl := exec_next_inj hu (exec_tbTick_accepted hen)
    obtain rfl := Host.Outcome.next.inj hrest
    exact ⟨rfl, rfl⟩
  | succ n hn ih =>
    obtain ⟨u, hu, hrest⟩ := execAll_cons_next h
    obtain rfl := exec_next_inj hu (exec_tbTick_accepted hen)
    exact ih (s := s.acceptTick.drive 0b00) hen hrest

/-! ### The render cycle -/

/-- The sequencer stands in cell `k`, `r` steps after entering it: lit for the first DWELL_LEN steps, dark for the rest
(43_display.md R149). -/
def State.StandsAt (s : State P) (k r : Nat) : Prop :=
  s.seqIdx.val = k ∧ (r < P.dwellLen → s.seqPh = .dwell ∧ s.seqCnt = r) ∧
    (P.dwellLen ≤ r → s.seqPh = .blank ∧ s.seqCnt = r - P.dwellLen)

theorem State.standsAt_dwell_iff {s : State P} {k r : Nat} (hr : r < P.dwellLen) :
    s.StandsAt k r ↔ s.seqIdx.val = k ∧ s.seqPh = .dwell ∧ s.seqCnt = r := by
  unfold State.StandsAt
  simp [hr, Nat.not_le.2 hr]

theorem State.standsAt_blank_iff {s : State P} {k r : Nat} (hr : P.dwellLen ≤ r) :
    s.StandsAt k r ↔ s.seqIdx.val = k ∧ s.seqPh = .blank ∧ s.seqCnt = r - P.dwellLen := by
  unfold State.StandsAt
  simp [hr, Nat.not_lt.2 hr]

/-- Within a cell a MUX.STEP moves the sequencer one step on, and nothing else. -/
theorem State.StandsAt.step_within {s : State P} {k r : Nat} (h : s.StandsAt k r)
    (hr : r + 1 < P.dwellLen + P.blankLen) (mode : Mode) :
    ∃ ph cnt, s.sequencerStep P.dwellLen P.blankLen mode = { s with seqPh := ph, seqCnt := cnt } ∧
      (s.sequencerStep P.dwellLen P.blankLen mode).StandsAt k (r + 1) := by
  by_cases hlit : r < P.dwellLen
  · obtain ⟨hk, hph, hcnt⟩ := (State.standsAt_dwell_iff hlit).1 h
    by_cases hon : r + 1 < P.dwellLen
    · have e := State.sequencerStep_dwell_on hph (by rwa [hcnt]) P.blankLen mode
      rw [e]
      exact ⟨s.seqPh, _, rfl, (State.standsAt_dwell_iff hon).2 ⟨hk, hph, by simp only [hcnt]⟩⟩
    · have e := State.sequencerStep_dwell_to_blank (d := P.dwellLen) (b := P.blankLen) hph (by omega) (by omega) mode
      rw [e]
      exact ⟨_, _, rfl, (State.standsAt_blank_iff (by omega)).2 ⟨hk, rfl, by simp only; omega⟩⟩
  · obtain ⟨hk, hph, hcnt⟩ := (State.standsAt_blank_iff (by omega)).1 h
    have e := State.sequencerStep_blank_on (b := P.blankLen) hph (by omega) P.dwellLen mode
    rw [e]
    exact ⟨s.seqPh, _, rfl, (State.standsAt_blank_iff (by omega)).2 ⟨hk, hph, by simp only [hcnt]; omega⟩⟩

/-- From the last step of a cell a MUX.STEP advances (43_display.md R148). -/
theorem State.StandsAt.step_advances {s : State P} {k r : Nat} (h : s.StandsAt k r)
    (hr : r + 1 = P.dwellLen + P.blankLen) (mode : Mode) :
    s.sequencerStep P.dwellLen P.blankLen mode = ({ s with seqCnt := 0, seqPh := .dwell } : State P).advance mode := by
  by_cases hlit : r < P.dwellLen
  · obtain ⟨-, hph, hcnt⟩ := (State.standsAt_dwell_iff hlit).1 h
    have hb : P.blankLen = 0 := by omega
    rw [hb]
    exact State.sequencerStep_dwell_advance hph (by omega) mode
  · obtain ⟨-, hph, hcnt⟩ := (State.standsAt_blank_iff (by omega)).1 h
    exact State.sequencerStep_blank_advance hph (by omega) P.dwellLen mode

theorem exec_muxStep_within {s : State} {k r : Nat} (h : s.StandsAt k r)
    (hr : r + 1 < Config.dwellLen + Config.blankLen) (mode : Mode) :
    ∃ ph cnt, exec (.muxStep mode) s = .next { s with seqPh := ph, seqCnt := cnt, res := some 0b00 } ∧
      ({ s with seqPh := ph, seqCnt := cnt, res := some 0b00 } : State).StandsAt k (r + 1) := by
  obtain ⟨ph, cnt, e, hstands⟩ := h.step_within hr mode
  refine ⟨ph, cnt, (exec_muxStep mode s).trans (congrArg (fun u => Host.Outcome.next (State.drive u 0b00)) e), ?_⟩
  rw [e] at hstands
  exact hstands

theorem exec_muxStep_next_cell {s : State} {k r : Nat} (h : s.StandsAt k r)
    (hr : r + 1 = Config.dwellLen + Config.blankLen) (hidx : s.seqIdx ≠ 4) (mode : Mode) :
    exec (.muxStep mode) s =
      .next { s with seqIdx := s.seqIdx + 1, seqPh := .dwell, seqCnt := 0, res := some 0b00 } := by
  let entered : State := { s with seqCnt := 0, seqPh := .dwell }
  have e := (h.step_advances hr mode).trans (State.advance_of_not_last (s := entered) hidx mode)
  exact (exec_muxStep mode s).trans (congrArg (fun u => Host.Outcome.next (State.drive u 0b00)) e)

theorem exec_muxStep_last_cell {s : State} {k r : Nat} (h : s.StandsAt k r)
    (hr : r + 1 = Config.dwellLen + Config.blankLen) (hidx : s.seqIdx = 4) (mode : Mode) :
    exec (.muxStep mode) s =
      .next ((({ s with seqIdx := 0, seqPh := .dwell, seqCnt := 0 } : State).formatPass mode).drive 0b00) := by
  let entered : State := { s with seqCnt := 0, seqPh := .dwell }
  have e := (h.step_advances hr mode).trans (State.advance_of_last (s := entered) hidx mode)
  exact (exec_muxStep mode s).trans (congrArg (fun u => Host.Outcome.next (State.drive u 0b00)) e)

/-- `n` steps into a render cycle, the sequencer is `n % (DWELL_LEN + BLANK_LEN)` steps into the cell of that number,
and nothing else has changed but `res` (43_display.md R149, R150). -/
theorem execAll_muxSteps {s : State} (hs : s.AtCycleStart) (mode : Mode) {n : Nat}
    (hn : n < 5 * (Config.dwellLen + Config.blankLen)) :
    ∃ t, execAll (List.replicate n (.muxStep mode)) s = .next t ∧
      t.StandsAt (n / (Config.dwellLen + Config.blankLen)) (n % (Config.dwellLen + Config.blankLen)) ∧
      t = { s with seqIdx := t.seqIdx, seqPh := t.seqPh, seqCnt := t.seqCnt, res := t.res } := by
  have hlit : 0 < Config.dwellLen := params_legal.dwellLen
  generalize hL : Config.dwellLen + Config.blankLen = L at hn ⊢
  induction n with
  | zero =>
    obtain ⟨hidx, hph, hcnt⟩ := hs
    refine ⟨s, rfl, ?_, rfl⟩
    rw [Nat.zero_div, Nat.zero_mod]
    exact (State.standsAt_dwell_iff hlit).2 ⟨congrArg Fin.val hidx, hph, hcnt⟩
  | succ n ih =>
    obtain ⟨t, ht, hstands, hframe⟩ := ih (by omega)
    have hdiv := Nat.div_add_mod n L
    have hmod := Nat.mod_lt n (show 0 < L by omega)
    by_cases hwithin : n % L + 1 < L
    · obtain ⟨hq, hr⟩ : (n + 1) / L = n / L ∧ (n + 1) % L = n % L + 1 :=
        (Nat.div_mod_unique (by omega)).2 ⟨by omega, hwithin⟩
      obtain ⟨ph, cnt, hexec, hnext⟩ := exec_muxStep_within hstands (by omega) mode
      refine ⟨_, by rw [List.replicate_succ', execAll_append_of_next ht]; exact execAll_cons_of_next hexec [],
        by rw [hq, hr]; exact hnext, ?_⟩
      rw [hframe]
    · obtain ⟨hq, hr⟩ : (n + 1) / L = n / L + 1 ∧ (n + 1) % L = 0 :=
        (Nat.div_mod_unique (by omega)).2 ⟨by rw [Nat.mul_add]; omega, by omega⟩
      have hcell : n / L + 1 < 5 := hq ▸ Nat.div_lt_of_lt_mul (by omega)
      have hidx : t.seqIdx.val = n / L := hstands.1
      have hnotlast : t.seqIdx ≠ 4 := fun h4 => by
        have h4' : t.seqIdx.val = 4 := congrArg Fin.val h4
        omega
      have hexec := exec_muxStep_next_cell hstands (by omega) hnotlast mode
      refine ⟨_, by rw [List.replicate_succ', execAll_append_of_next ht]; exact execAll_cons_of_next hexec [], ?_, ?_⟩
      · rw [hq, hr]
        exact (State.standsAt_dwell_iff hlit).2 ⟨by simp [Fin.val_add, hidx]; omega, rfl, rfl⟩
      · rw [hframe]

/-- A whole render cycle is one format pass, in its last step (43_display.md R149, R150). -/
theorem execAll_renderCycle {s : State} (hs : s.AtCycleStart) (mode : Mode) :
    execAll (List.replicate (5 * (Config.dwellLen + Config.blankLen)) (.muxStep mode)) s =
      .next ((s.formatPass mode).drive 0b00) := by
  have hlit : 0 < Config.dwellLen := params_legal.dwellLen
  obtain ⟨n, hn⟩ : ∃ n, 5 * (Config.dwellLen + Config.blankLen) = n + 1 :=
    Nat.exists_eq_add_one.2 (by omega)
  obtain ⟨t, ht, hstands, hframe⟩ := execAll_muxSteps hs mode (show n < _ by omega)
  obtain ⟨hq, hr⟩ : n / (Config.dwellLen + Config.blankLen) = 4 ∧
      n % (Config.dwellLen + Config.blankLen) = Config.dwellLen + Config.blankLen - 1 :=
    (Nat.div_mod_unique (by omega)).2 ⟨by omega, by omega⟩
  rw [hq, hr] at hstands
  have hlast : t.seqIdx = 4 := Fin.ext hstands.1
  have hexec := exec_muxStep_last_cell hstands (by omega) hlast mode
  have hback : ({ t with seqIdx := 0, seqPh := .dwell, seqCnt := 0 } : State) = { s with res := t.res } := by
    obtain ⟨hidx, hph, hcnt⟩ := hs
    rw [hframe]
    simp [hidx, hph, hcnt]
  rw [hback] at hexec
  rw [hn, List.replicate_succ', execAll_append_of_next ht, execAll_cons_of_next hexec]
  cases mode <;> rfl

/-- Strictly within a render cycle the sequencer is not back at the entry to cell 0. -/
theorem State.StandsAt.not_atCycleStart {s : State P} {n : Nat} (hn : 0 < n)
    (h : s.StandsAt (n / (P.dwellLen + P.blankLen)) (n % (P.dwellLen + P.blankLen))) : ¬ s.AtCycleStart := by
  rintro ⟨hidx, hph, hcnt⟩
  have hdiv := Nat.div_add_mod n (P.dwellLen + P.blankLen)
  by_cases hr : n % (P.dwellLen + P.blankLen) < P.dwellLen
  · obtain ⟨hk, -, hcnt'⟩ := (State.standsAt_dwell_iff hr).1 h
    have hcell : n / (P.dwellLen + P.blankLen) = 0 := by rw [← hk, hidx]; rfl
    rw [hcell, ← hcnt', hcnt] at hdiv
    omega
  · obtain ⟨-, hdark, -⟩ := (State.standsAt_blank_iff (by omega)).1 h
    rw [hph] at hdark
    nomatch hdark

end Sys2Proof.Machine

open Sys2Proof Sys2Proof.Machine

/-- Settles O43: the cells of `cellsOf`, with the shown entity and the glyph table written out. -/
theorem fmtWritesTheCells : Obligations.FmtWritesTheCells := by
  unfold Obligations.FmtWritesTheCells
  intro s mode g e
  have hshown : s.time (shownEntity mode) = e := shownEntity_time s mode
  have hglyph (k : Nat) : glyph k = g k := glyph_eq k
  refine ⟨_, exec_fmt mode s, rfl, ?_, ?_, ?_, ?_, ?_⟩ <;> rw [State.drive_cells, State.formatPass_cells, hshown]
  · rw [cellsOf_get_zero, hglyph]
    simp [indicator]
  · rw [cellsOf_get_one, hglyph]
  · rw [cellsOf_get_two]
    rfl
  · rw [cellsOf_get_three, hglyph]
  · rw [cellsOf_get_four, hglyph]
    rfl

/-- Settles O44: no glyph and no colon code of this hardware has bit 7, so it is the indicator's. -/
theorem indicatorBitsShowPmAndAlarm : Obligations.IndicatorBitsShowPmAndAlarm := by
  unfold Obligations.IndicatorBitsShowPmAndAlarm
  intro s t mode h
  obtain rfl := exec_next_inj h (exec_fmt mode s)
  have hcolon (lit : Bool) : (if lit then colonGlyph else 0x00).getLsbD 7 = false := by cases lit <;> rfl
  rw [State.drive_cells, State.formatPass_cells, shownEntity_time, cellsOf_get_zero, cellsOf_get_one, cellsOf_get_two,
    cellsOf_get_three, cellsOf_get_four]
  simp only [BitVec.getLsbD_or, glyph_bit7, indicator_bit7, Bool.false_or, beq_iff_eq, true_and, and_true]
  exact hcolon _

/-- Settles O45: `cellsOf` reads no other field of the shown time. -/
theorem formatPassIsPure : Obligations.FormatPassIsPure := by
  unfold Obligations.FormatPassIsPure
  rintro s s' t t' mode e e' he he' hm hh hmer hen hcolon hblink h h'
  obtain rfl := exec_next_inj h (exec_fmt mode s)
  obtain rfl := exec_next_inj h' (exec_fmt mode s')
  simp only [State.drive_cells, State.formatPass_cells, shownEntity_time, ← he, ← he', cellsOf, hm, hh, hmer, hen,
    hcolon, hblink]

/-- Settles O47, by the cases of the sequencer; entering cell 0 is FMT with the sequencer at the entry. -/
theorem muxStepAdvancesTheSequencer : Obligations.MuxStepAdvancesTheSequencer := by
  unfold Obligations.MuxStepAdvancesTheSequencer
  intro s mode
  refine ⟨_, exec_muxStep mode s, fun hp hcnt => ?_, fun hp hcnt hb => ?_, fun hp hcnt => ?_, fun hadvance => ?_⟩
  · rw [State.sequencerStep_dwell_on hp hcnt, State.drive_eq]
  · rw [State.sequencerStep_dwell_to_blank hp hcnt hb, State.drive_eq]
  · rw [State.sequencerStep_blank_on hp hcnt, State.drive_eq]
  · let entered : State := { s with seqCnt := 0, seqPh := .dwell }
    have e : s.sequencerStep Config.dwellLen Config.blankLen mode = entered.advance mode := by
      rcases hadvance with ⟨hp, hcnt, hb⟩ | ⟨hp, hcnt⟩
      · rw [hb]
        exact State.sequencerStep_dwell_advance hp hcnt mode
      · exact State.sequencerStep_blank_advance hp hcnt _ mode
    rw [e]
    refine ⟨fun hnotlast => ?_, fun hlast => ⟨_, exec_fmt mode s, ?_⟩⟩
    · rw [State.advance_of_not_last (s := entered) hnotlast]
      rfl
    · rw [State.advance_of_last (s := entered) hlast]
      cases mode <;> rfl

/-- Settles O48: where the sequencer stands after `n` steps, and the whole cycle as one format pass. -/
theorem renderCycleStrobesEachCellAlike : Obligations.RenderCycleStrobesEachCellAlike := by
  unfold Obligations.RenderCycleStrobesEachCellAlike
  intro s mode hidx hph hcnt
  have hs : s.AtCycleStart := ⟨hidx, hph, hcnt⟩
  refine ⟨fun n hn => ?_, _, _, execAll_renderCycle hs mode, exec_fmt mode s, rfl⟩
  obtain ⟨t, ht, ⟨hcell, hlit, hdark⟩, hframe⟩ := execAll_muxSteps hs mode hn
  exact ⟨t, ht, hcell, hlit, hdark, by rw [hframe], by rw [hframe], by rw [hframe]⟩

/-- Settles O49. -/
theorem segmentAndSelectOutputs : Obligations.SegmentAndSelectOutputs := by
  unfold Obligations.SegmentAndSelectOutputs
  intro s
  have hidx := s.seqIdx.isLt
  have hsel : s.selOut.toNat = s.seqIdx.val := Nat.mod_eq_of_lt (by omega)
  refine ⟨hsel, by omega, fun hp => ?_, fun hp => ?_, fun hlow => ?_, fun hhigh => ?_⟩
  · rw [State.seg, hp]
  · rw [State.seg, hp]
  · exact (if_pos hlow).trans (BitVec.allOnes_xor.symm.trans (BitVec.xor_comm _ _))
  · exact if_neg (Bool.eq_false_iff.1 hhigh)

/-- Settles O50: the first format pass consumes the ticks' BLINK and toggles, the others find it consumed. -/
theorem colonTogglesOncePerConsumedBlink : Obligations.ColonTogglesOncePerConsumedBlink := by
  unfold Obligations.ColonTogglesOncePerConsumedBlink
  intro s t n mode modes hen hn h
  obtain ⟨u, hticks, hfmts⟩ := execAll_append_next h
  obtain ⟨hcolon, hblink⟩ := execAll_ticks_blink hen hn hticks
  obtain ⟨v, hfmt, hrest⟩ := execAll_cons_next hfmts
  obtain rfl := exec_next_inj hfmt (exec_fmt mode u)
  obtain ⟨hcolon', hdone⟩ := execAll_fmts_of_no_blink rfl hrest
  refine ⟨hcolon'.trans ?_, hdone⟩
  rw [State.drive_colonOn, State.formatPass_colonOn, hcolon, hblink, colonAfterPass, Bool.xor_true]

/-- Settles O60: the least return is the render cycle of 5 * (DWELL_LEN + BLANK_LEN) steps, and cell `k` is lit at its
first step. -/
theorem legalRatesRefreshAtSixtyHertz : Obligations.LegalRatesRefreshAtSixtyHertz := by
  unfold Obligations.LegalRatesRefreshAtSixtyHertz
  rintro s mode r hs ⟨-, -, hmux⟩
  have hlit : 0 < Config.dwellLen := params_legal.dwellLen
  have hcycle := execAll_renderCycle hs mode
  have hsteps : ((5 * (Config.dwellLen + Config.blankLen) : Nat) : ℚ) =
      5 * ((Config.dwellLen : ℚ) + Config.blankLen) := by push_cast; rfl
  refine ⟨5 * (Config.dwellLen + Config.blankLen), by omega, ⟨_, hcycle, hs⟩, fun m t hm hlt ht => ?_, fun k => ?_,
    ?_, ?_⟩
  · obtain ⟨u, hu, hstands, -⟩ := execAll_muxSteps hs mode hlt
    obtain rfl := execAll_next_inj ht hu
    exact hstands.not_atCycleStart hm
  · have hk : k.val * (Config.dwellLen + Config.blankLen) < 5 * (Config.dwellLen + Config.blankLen) :=
      Nat.mul_lt_mul_of_pos_right k.isLt (by omega)
    obtain ⟨t, ht, hstands, -⟩ := execAll_muxSteps hs mode hk
    rw [Nat.mul_div_cancel _ (by omega), Nat.mul_mod_left] at hstands
    obtain ⟨hcell, hph, -⟩ := (State.standsAt_dwell_iff hlit).1 hstands
    exact ⟨_, hk, t, ht, Fin.ext hcell, hph⟩
  · rw [hsteps]
    rfl
  · have hpos : (0 : ℚ) < 5 * ((Config.dwellLen : ℚ) + Config.blankLen) := by
      rw [← hsteps]
      exact_mod_cast (show 0 < 5 * (Config.dwellLen + Config.blankLen) by omega)
    rw [hsteps, le_div_iff₀ hpos, ← mul_assoc]
    exact hmux

end

section
/-! The whole machine: who writes what, what the result port carries, and the order of operations from different
sources (10_state.md R36, R37, 20_memory.md R56 to R59, 30_encoding.md R67). -/

namespace Sys2Proof.Machine

/-! ### Writers -/

theorem perform_of_exec {i : Instr} {s t : State} (h : exec i s = .next t) : perform i s = .next t :=
  (exec_eq_perform i s).symm.trans h

theorem clk_writers {i : Instr} {s t : State} (h : exec i s = .next t) (hne : t.clk ≠ s.clk) :
    i = .tbTick ∨ (∃ st, i = .edMin .clk st) ∨ (∃ st, i = .edHour .clk st) ∨ i = .edMer .clk := by
  rcases perform_times_cases (perform_of_exec h) with ⟨hclk, -⟩ | ⟨hi, -⟩ | ⟨-, hclk, -⟩ | ⟨_ | _, u, hedit, rfl⟩
  · exact absurd hclk hne
  · exact .inl hi
  · exact absurd hclk hne
  · exact .inr hedit.operation
  · exact absurd rfl hne

theorem alm_writers {i : Instr} {s t : State} (h : exec i s = .next t) (hne : t.alm ≠ s.alm) :
    i = .alSnooze ∨ (∃ st, i = .edMin .alm st) ∨ (∃ st, i = .edHour .alm st) ∨ i = .edMer .alm := by
  rcases perform_times_cases (perform_of_exec h) with ⟨-, halm⟩ | ⟨-, -, halm⟩ | ⟨hi, -⟩ | ⟨_ | _, u, hedit, rfl⟩
  · exact absurd halm hne
  · exact absurd halm hne
  · exact .inl hi
  · exact absurd rfl hne
  · exact .inr hedit.operation

/-- The two enables and their writers; the count of resets is no operation's to write (10_state.md R37). -/
theorem enables_cases {i : Instr} {s t : State} (h : exec i s = .next t) :
    (t.almEn = s.almEn ∨ i = .alTen ∨ i = .alDismiss) ∧ (t.tickEn = s.tickEn ∨ ∃ b, i = .tbEn b) ∧
      t.resets = s.resets := by
  rcases perform_kind_cases (perform_of_exec h) with
    rfl | ⟨-, d, q, r, rfl⟩ | ⟨-, rfl⟩ | ⟨b, hi, rfl⟩ | ⟨ent, u, -, rfl⟩ | ⟨en, ring, alm, halm, rfl⟩ | ⟨mode, -, rfl⟩ |
    ⟨mode, -, rfl⟩
  · exact ⟨.inl rfl, .inl rfl, rfl⟩
  · exact ⟨.inl rfl, .inl rfl, rfl⟩
  · exact ⟨.inl rfl, .inl rfl, rfl⟩
  · exact ⟨.inl rfl, .inr ⟨b, hi⟩, rfl⟩
  · exact ⟨.inl (by simp), .inl (by simp), by simp⟩
  · refine ⟨?_, .inl rfl, rfl⟩
    rcases halm with ⟨hi, -⟩ | ⟨-, hkept, -⟩
    · exact .inr hi
    · exact .inl hkept
  · exact ⟨.inl rfl, .inl rfl, rfl⟩
  · obtain ⟨idx, ph, cnt, cells, blink, colonOn, e⟩ :=
      s.sequencerStep_frame Config.params.dwellLen Config.params.blankLen mode
    rw [e]
    exact ⟨.inl rfl, .inl rfl, rfl⟩

theorem deb_writers {i : Instr} {s t : State} (h : exec i s = .next t) {k : Fin Config.numButtons}
    (hne : t.deb.get k ≠ s.deb.get k) : ∃ lvl, i = .debSample (BitVec.ofNat 4 k.val) lvl := by
  rcases sampling_cases i with ⟨j, lvl, rfl⟩ | ⟨e, raw, rfl⟩ | ⟨hdeb, hqdec⟩
  · obtain ⟨hj, rfl⟩ := exec_debSample_next h
    obtain rfl : k = ⟨j.toNat, hj⟩ := by
      by_contra hk
      exact hne (State.setDeb_get_other s _ k _ hk)
    exact ⟨lvl, by simp⟩
  · obtain rfl := exec_next_inj h (exec_qdecStep e raw s)
    exact absurd rfl hne
  · rw [eq_withUnread_of_exec hdeb hqdec h] at hne
    exact absurd rfl hne

theorem qh_writers {i : Instr} {s t : State} (h : exec i s = .next t) {e : Fin Config.numEncoders}
    (hne : t.qh.get e ≠ s.qh.get e) : ∃ raw, i = .qdecStep e raw := by
  rcases sampling_cases i with ⟨j, lvl, rfl⟩ | ⟨e', raw, rfl⟩ | ⟨hdeb, hqdec⟩
  · obtain ⟨hj, rfl⟩ := exec_debSample_next h
    exact absurd rfl hne
  · obtain rfl := exec_next_inj h (exec_qdecStep e' raw s)
    obtain rfl : e = e' := by
      by_contra he
      exact hne (State.setQh_get_other s _ e _ he)
    exact ⟨raw, rfl⟩
  · rw [eq_withUnread_of_exec hdeb hqdec h] at hne
    exact absurd rfl hne

/-- The result port after an operation that samples nothing (30_encoding.md R67). -/
theorem res_of_not_sampling {i : Instr} {s t : State} (hi : Source.sampling.delivers i = false)
    (h : exec i s = .next t) : t.res = some 0b00 := by
  rcases perform_kind_cases (perform_of_exec h) with
    rfl | ⟨hsample, -⟩ | ⟨-, rfl⟩ | ⟨b, -, rfl⟩ | ⟨ent, u, -, rfl⟩ | ⟨en, ring, alm, -, rfl⟩ | ⟨mode, -, rfl⟩ |
    ⟨mode, -, rfl⟩
  case inr.inl => exact absurd (hi.symm.trans hsample) Bool.false_ne_true
  all_goals exact State.drive_res _ _

/-! ### Sampling operations and the others -/

/-- What a sampling operation writes, its history and the result, is determined by the histories before it
(40_debounce.md R91, 41_quadrature.md R102). -/
theorem exec_sampling {i : Instr} {s t u : State} (hi : Source.sampling.delivers i = true) (h : exec i s = .next t)
    (hdeb : u.deb = s.deb) (hqh : u.qh = s.qh) :
    exec i u = .next (u.withUnread t.deb t.qh u.inputs t.res) := by
  cases i with
  | debSample k lvl =>
    obtain ⟨hk, rfl⟩ := exec_debSample_next h
    rw [exec_debSample_of_lt hk]
    simp [State.withUnread, State.setDeb, State.drive, hdeb, hqh]
  | qdecStep e raw =>
    obtain rfl := exec_next_inj h (exec_qdecStep e raw s)
    rw [exec_qdecStep]
    simp [State.withUnread, State.setQh, State.drive, hdeb, hqh]
  | _ => nomatch hi

theorem not_sampling_of_delivers {i : Instr} (hi : Source.sampling.delivers i = false) :
    (∀ k lvl, i ≠ .debSample k lvl) ∧ ∀ e raw, i ≠ .qdecStep e raw := by
  constructor
  · rintro k lvl rfl
    nomatch hi
  · rintro e raw rfl
    nomatch hi

theorem delivers_of_not_sampling {i : Instr} (hdeb : ∀ k lvl, i ≠ .debSample k lvl)
    (hqdec : ∀ e raw, i ≠ .qdecStep e raw) : Source.sampling.delivers i = false := by
  cases i with
  | debSample k lvl => exact absurd rfl (hdeb k lvl)
  | qdecStep e raw => exact absurd rfl (hqdec e raw)
  | _ => rfl

/-- Two operations in either order: both complete, the states agree but for `res`, and each operation reports alike
(20_memory.md R59). -/
def CommuteAt (s : State) (i j : Instr) : Prop :=
  ∃ a ab b ba, exec i s = .next a ∧ exec j a = .next ab ∧ exec j s = .next b ∧ exec i b = .next ba ∧
    ({ ab with res := none } : State) = { ba with res := none } ∧ a.res = ba.res ∧ b.res = ab.res

theorem CommuteAt.symm {s : State} {i j : Instr} (h : CommuteAt s i j) : CommuteAt s j i := by
  obtain ⟨a, ab, b, ba, ha, hab, hb, hba, hstate, hi, hj⟩ := h
  exact ⟨b, ba, a, ab, hb, hba, ha, hab, hstate.symm, hj, hi⟩

theorem commuteAt_sampling_other (s : State) {i j : Instr} (hi : Source.sampling.delivers i = true)
    (hbroken : i.broken = none) (hj : Source.sampling.delivers j = false) (hbroken' : j.broken = none) :
    CommuteAt s i j := by
  obtain ⟨hdeb, hqdec⟩ := not_sampling_of_delivers hj
  obtain ⟨a, ha⟩ := exec_of_broken_none hbroken s
  obtain ⟨b, hb⟩ := exec_of_broken_none hbroken' s
  have hkept := eq_withUnread_of_exec hdeb hqdec hb
  have hs := exec_sampling hi ha (u := s) rfl rfl
  have hba := exec_sampling hi ha (u := b) (by rw [hkept]; rfl) (by rw [hkept]; rfl)
  refine ⟨_, _, b, _, hs, exec_withUnread hdeb hqdec hb _ _ _ _, hb, hba, ?_, rfl, rfl⟩
  rw [exec_inputs hb]
  rfl

/-- DEB.SAMPLE writes alike from all states that hold the same history of its button. -/
theorem exec_debSample_reads {k : BitVec 4} (hk : k.toNat < Config.numButtons) (lvl : BitVec 1) (s : State) :
    ∃ v r, ∀ u : State, u.deb.get ⟨k.toNat, hk⟩ = s.deb.get ⟨k.toNat, hk⟩ →
      exec (.debSample k lvl) u = .next ((u.setDeb ⟨k.toNat, hk⟩ v).drive r) :=
  ⟨_, _, fun u h => h ▸ exec_debSample_of_lt hk lvl u⟩

/-- QDEC.STEP writes alike from all states that hold the same history of its encoder. -/
theorem exec_qdecStep_reads (e : Fin 2) (raw : BitVec 2) (s : State) :
    ∃ v r, ∀ u : State, u.qh.get e = s.qh.get e → exec (.qdecStep e raw) u = .next ((u.setQh e v).drive r) :=
  ⟨_, _, fun u h => h ▸ exec_qdecStep e raw u⟩

theorem State.setDeb_setDeb_comm (s : State) {k k' : Fin Config.numButtons} (hne : k ≠ k')
    (v v' : BitVec Config.debW) : (s.setDeb k v).setDeb k' v' = (s.setDeb k' v').setDeb k v :=
  congrArg (fun d => ({ s with deb := d } : State)) (Vector.set_comm v v' (Fin.val_ne_of_ne hne))

theorem State.setQh_setQh_comm (s : State) {e e' : Fin Config.numEncoders} (hne : e ≠ e') (v v' : BitVec 4) :
    (s.setQh e v).setQh e' v' = (s.setQh e' v').setQh e v :=
  congrArg (fun q => ({ s with qh := q } : State)) (Vector.set_comm v v' (Fin.val_ne_of_ne hne))

theorem commuteAt_debSample_debSample (s : State) {k k' : BitVec 4} (hk : k.toNat < Config.numButtons)
    (hk' : k'.toNat < Config.numButtons) (hne : k ≠ k') (lvl lvl' : BitVec 1) :
    CommuteAt s (.debSample k lvl) (.debSample k' lvl') := by
  have hval : (⟨k.toNat, hk⟩ : Fin Config.numButtons) ≠ ⟨k'.toNat, hk'⟩ :=
    fun h => hne (BitVec.eq_of_toNat_eq (Fin.mk.inj_iff.1 h))
  obtain ⟨v, r, hv⟩ := exec_debSample_reads hk lvl s
  obtain ⟨v', r', hv'⟩ := exec_debSample_reads hk' lvl' s
  refine ⟨_, _, _, _, hv s rfl, hv' _ (State.setDeb_get_other s _ _ v hval.symm), hv' s rfl,
    hv _ (State.setDeb_get_other s _ _ v' hval), ?_, rfl, rfl⟩
  have hcomm := congrArg (fun u : State => ({ u with res := none } : State)) (State.setDeb_setDeb_comm s hval v v')
  exact hcomm

theorem commuteAt_qdecStep_qdecStep (s : State) {e e' : Fin 2} (hne : e ≠ e') (raw raw' : BitVec 2) :
    CommuteAt s (.qdecStep e raw) (.qdecStep e' raw') := by
  obtain ⟨v, r, hv⟩ := exec_qdecStep_reads e raw s
  obtain ⟨v', r', hv'⟩ := exec_qdecStep_reads e' raw' s
  refine ⟨_, _, _, _, hv s rfl, hv' _ (State.setQh_get_other s e e' v hne.symm), hv' s rfl,
    hv _ (State.setQh_get_other s e' e v' hne), ?_, rfl, rfl⟩
  have hcomm := congrArg (fun u : State => ({ u with res := none } : State)) (State.setQh_setQh_comm s hne v v')
  exact hcomm

theorem commuteAt_debSample_qdecStep (s : State) {k : BitVec 4} (hk : k.toNat < Config.numButtons) (lvl : BitVec 1)
    (e : Fin 2) (raw : BitVec 2) : CommuteAt s (.debSample k lvl) (.qdecStep e raw) :=
  ⟨_, _, _, _, exec_debSample_of_lt hk lvl s, exec_qdecStep e raw _, exec_qdecStep e raw s,
    exec_debSample_of_lt hk lvl _, rfl, rfl, rfl⟩

theorem lt_numButtons_of_broken {k : BitVec 4} {lvl : BitVec 1} (h : (Instr.debSample k lvl).broken = none) :
    k.toNat < Config.numButtons := by
  by_contra hc
  rw [Instr.broken, Instr.brokenFor, if_neg hc] at h
  nomatch h

/-- DEB.SAMPLE commutes with every operation but DEB.SAMPLE on the same input (20_memory.md R59). -/
theorem commuteAt_debSample (s : State) {k : BitVec 4} {lvl : BitVec 1} {j : Instr}
    (hi : (Instr.debSample k lvl).broken = none) (hj : j.broken = none) (hne : ∀ lvl', j ≠ .debSample k lvl') :
    CommuteAt s (.debSample k lvl) j := by
  have hk := lt_numButtons_of_broken hi
  cases j with
  | debSample k' lvl' =>
    have hkk' : k ≠ k' := fun h => hne lvl' (h ▸ rfl)
    exact commuteAt_debSample_debSample s hk (lt_numButtons_of_broken hj) hkk' lvl lvl'
  | qdecStep e raw => exact commuteAt_debSample_qdecStep s hk lvl e raw
  | _ => exact commuteAt_sampling_other s rfl hi rfl hj

/-- QDEC.STEP commutes with every operation but QDEC.STEP on the same encoder (20_memory.md R59). -/
theorem commuteAt_qdecStep (s : State) {e : Fin 2} {raw : BitVec 2} {j : Instr} (hj : j.broken = none)
    (hne : ∀ raw', j ≠ .qdecStep e raw') : CommuteAt s (.qdecStep e raw) j := by
  cases j with
  | debSample k lvl => exact (commuteAt_debSample_qdecStep s (lt_numButtons_of_broken hj) lvl e raw).symm
  | qdecStep e' raw' => exact commuteAt_qdecStep_qdecStep s (fun h : e = e' => hne raw' (h ▸ rfl)) raw raw'
  | _ => exact commuteAt_sampling_other s rfl rfl rfl hj

/-! ### Interleavings -/

/-- The histories after an interleaving of a sampling stream with other operations are those that the stream alone
leaves, from states that agree on the histories (20_memory.md R58, R59). -/
theorem histories_of_interleaves {streams : List (List Instr)} {out : List Instr} (h : Interleaves streams out)
    {samples others : List Instr} (hstreams : streams = [samples, others])
    (hsamples : ∀ i ∈ samples, Source.sampling.delivers i = true)
    (hothers : ∀ i ∈ others, Source.sampling.delivers i = false) {s s' t u : State} (hdeb : s.deb = s'.deb)
    (hqh : s.qh = s'.qh) (ht : execAll out s = .next t) (hu : execAll samples s' = .next u) :
    t.deb = u.deb ∧ t.qh = u.qh := by
  induction h generalizing samples others s s' with
  | done streams hdone =>
    subst hstreams
    obtain rfl : samples = [] := hdone samples (by simp)
    obtain rfl := Host.Outcome.next.inj ht
    obtain rfl := Host.Outcome.next.inj hu
    exact ⟨hdeb, hqh⟩
  | take before after x xs out _ ih =>
    obtain ⟨m, hm, hrest⟩ := execAll_cons_next ht
    match before, hstreams with
    | [], hstreams =>
      obtain ⟨rfl, rfl⟩ := List.cons.inj hstreams
      obtain ⟨hx, hxs⟩ := List.forall_mem_cons.1 hsamples
      obtain ⟨m', hm', hrest'⟩ := execAll_cons_next hu
      obtain rfl := exec_next_inj hm' (exec_sampling hx hm hdeb.symm hqh.symm)
      refine ih rfl hxs hothers ?_ ?_ hrest hrest' <;> rfl
    | [_], hstreams =>
      obtain ⟨rfl, hothersEq⟩ := List.cons.inj hstreams
      obtain ⟨rfl, rfl⟩ := List.cons.inj hothersEq
      obtain ⟨hx, hxs⟩ := List.forall_mem_cons.1 hothers
      obtain ⟨hnotDeb, hnotQdec⟩ := not_sampling_of_delivers hx
      have hkept := eq_withUnread_of_exec hnotDeb hnotQdec hm
      exact ih rfl hsamples hxs (by rw [hkept]; exact hdeb) (by rw [hkept]; exact hqh) hrest hu
    | _ :: _ :: _, hstreams => simp at hstreams

end Sys2Proof.Machine

open Sys2Proof Sys2Proof.Machine

/-- Settles O51, field by field. -/
theorem everyFieldHasItsWriters : Obligations.EveryFieldHasItsWriters := by
  unfold Obligations.EveryFieldHasItsWriters
  intro i s t h
  have hperform := perform_of_exec h
  obtain ⟨halmEn, htickEn, hresets⟩ := enables_cases h
  refine ⟨clk_writers h, alm_writers h, halmEn.resolve_left, fun hne => ?_, htickEn.resolve_left, fun hne => ?_,
    fun hne => ?_, fun _ => deb_writers h, fun _ => qh_writers h, fun hne => ?_, fun hne => ?_, exec_inputs h, hresets⟩
  · by_cases htick : i = .tbTick
    · exact .inl htick
    · exact .inr ((almRing_of_ne_tbTick h htick).resolve_left hne).1
  · rcases perform_display_cases hperform with ⟨-, -, hkept | htick⟩ | ⟨mode, hfmt | hmux, -⟩
    · exact absurd hkept hne
    · exact .inl htick
    · exact .inr (.inl ⟨mode, hfmt⟩)
    · exact .inr (.inr ⟨mode, hmux⟩)
  · rcases perform_display_cases hperform with ⟨-, hkept, -⟩ | ⟨mode, hfmt | hmux, -⟩
    · exact absurd hkept hne
    · exact .inl ⟨mode, hfmt⟩
    · exact .inr ⟨mode, hmux⟩
  · rcases perform_display_cases hperform with ⟨hkept, -⟩ | ⟨mode, hfmt | hmux, -⟩
    · exact absurd hkept hne
    · exact .inl ⟨mode, hfmt⟩
    · exact .inr ⟨mode, hmux⟩
  · rcases perform_sequencer_cases hperform with ⟨hidx, hph, hcnt⟩ | ⟨mode, hmux, -⟩
    · exact absurd hne (by simp [hidx, hph, hcnt])
    · exact ⟨mode, hmux⟩

/-- Settles O52: of the operations that write times, the edits keep the seconds. -/
theorem onlyTicksAndSnoozesWriteSeconds : Obligations.OnlyTicksAndSnoozesWriteSeconds := by
  unfold Obligations.OnlyTicksAndSnoozesWriteSeconds
  intro i s t h
  rcases perform_times_cases (perform_of_exec h) with
    ⟨hclk, halm⟩ | ⟨hi, -, halm⟩ | ⟨hi, hclk, -⟩ | ⟨_ | _, u, hedit, rfl⟩
  · exact ⟨fun hne => absurd (congrArg TimeOfDay.s hclk) hne, fun hne => absurd (congrArg TimeOfDay.s halm) hne⟩
  · exact ⟨fun _ => hi, fun hne => absurd (congrArg TimeOfDay.s halm) hne⟩
  · exact ⟨fun hne => absurd (congrArg TimeOfDay.s hclk) hne, fun _ => hi⟩
  · exact ⟨fun hne => absurd hedit.seconds hne, fun hne => absurd rfl hne⟩
  · exact ⟨fun hne => absurd rfl hne, fun hne => absurd hedit.seconds hne⟩

/-- Settles O53: an operation that samples nothing reads no history, and each sampling operation only its own kind. -/
theorem historiesAreHidden : Obligations.HistoriesAreHidden := by
  unfold Obligations.HistoriesAreHidden
  constructor
  · intro i s t d hdeb h
    rcases sampling_cases i with ⟨k, lvl, rfl⟩ | ⟨e, raw, rfl⟩ | ⟨-, hqdec⟩
    · exact absurd rfl (hdeb k lvl)
    · obtain rfl := exec_next_inj h (exec_qdecStep e raw s)
      exact exec_qdecStep e raw _
    · rw [eq_withUnread_of_exec hdeb hqdec h]
      exact exec_withUnread hdeb hqdec h d s.qh s.inputs s.res
  · intro i s t q hqdec h
    rcases sampling_cases i with ⟨k, lvl, rfl⟩ | ⟨e, raw, rfl⟩ | ⟨hdeb, -⟩
    · obtain ⟨hk, rfl⟩ := exec_debSample_next h
      exact exec_debSample_of_lt hk lvl _
    · exact absurd rfl (hqdec e raw)
    · rw [eq_withUnread_of_exec hdeb hqdec h]
      exact exec_withUnread hdeb hqdec h s.deb q s.inputs s.res

/-- Settles O54. -/
theorem samplesCommuteWithOtherOperations : Obligations.SamplesCommuteWithOtherOperations := by
  unfold Obligations.SamplesCommuteWithOtherOperations
  intro s i j hi hj hsample
  have hi' := Option.isNone_iff_eq_none.1 hi
  have hj' := Option.isNone_iff_eq_none.1 hj
  rcases hsample with ⟨k, lvl, rfl, hne⟩ | ⟨e, raw, rfl, hne⟩
  · exact commuteAt_debSample s hi' hj' hne
  · exact commuteAt_qdecStep s hj' hne

/-- Settles O56, by induction on the interleaving. -/
theorem interleavingKeepsTheHistories : Obligations.InterleavingKeepsTheHistories :=
  fun _ _ _ _ _ _ hsamples hothers hout ht hu => histories_of_interleaves hout rfl hsamples hothers rfl rfl ht hu

/-- Settles O57: what the first performance leaves is a state from which the second changes nothing. -/
theorem idempotentOperations : Obligations.IdempotentOperations := by
  unfold Obligations.IdempotentOperations
  rintro s t i (rfl | ⟨b, rfl⟩ | rfl | ⟨rfl, hquiet⟩) h
  · obtain rfl := exec_next_inj h (exec_nop s)
    exact exec_nop _
  · obtain rfl := exec_next_inj h (exec_tbEn b s)
    exact exec_tbEn b _
  · rcases exec_alDismiss_cases s with ⟨-, e⟩ | ⟨hquiet, e⟩
    · obtain rfl := exec_next_inj h e
      exact exec_alDismiss_quiet rfl
    · obtain rfl := exec_next_inj h e
      exact exec_alDismiss_quiet hquiet
  · obtain rfl := exec_next_inj h (exec_alSnooze_quiet hquiet)
    exact exec_alSnooze_quiet hquiet

/-- Settles O58: the codes of the two sampling operations, and 0b00 from every other operation. -/
theorem resultPortCarriesOnlySampleResults : Obligations.ResultPortCarriesOnlySampleResults := by
  unfold Obligations.ResultPortCarriesOnlySampleResults
  intro i s t h
  refine ⟨fun hdeb hqdec => res_of_not_sampling (delivers_of_not_sampling hdeb hqdec) h, ?_, ?_⟩
  · rintro ⟨k, lvl, rfl⟩
    obtain ⟨hk, rfl⟩ := exec_debSample_next h
    rw [State.drive_res, pressedCode_eq]
    split
    · exact .inr rfl
    · exact .inl rfl
  · rintro ⟨e, raw, rfl⟩
    obtain rfl := exec_next_inj h (exec_qdecStep e raw s)
    rw [State.drive_res, stepCode_qdecTable]
    split_ifs
    · exact .inr (.inl rfl)
    · exact .inr (.inr rfl)
    · exact .inl rfl

end

section
/-! The written form of an operation reads back (30_encoding.md R76): operand by operand, then line by line. -/

namespace Sys2Proof.Machine

/-! ### Operands -/

theorem readEntity_entityText (ent : Entity) : readEntity (entityText ent) = some ent := by cases ent <;> decide

theorem readMode_modeText (mode : Mode) : readMode (modeText mode) = some mode := by cases mode <;> decide

theorem readBit_bitText (b : Bool) : readBit (bitText b) = some b := by cases b <;> decide

theorem readRaw_rawText (raw : BitVec 2) : readRaw (rawText raw) = some raw := by revert raw; decide

theorem readStep_stepText (st : BitVec 2) (h : st ≠ 0b10#2) : readStep (stepText st) = some st := by
  revert st; decide

theorem readButton_repr (i : BitVec 4) (h : i.toNat < 8) : readButton 8 (Nat.repr i.toNat) = some i := by
  revert i; decide

theorem ofBool_level (lvl : BitVec 1) : BitVec.ofBool (lvl.getLsbD 0) = lvl := by revert lvl; decide

theorem encoderOfBit_beq (e : Fin 2) : encoderOfBit (e == 1) = e := by revert e; decide

/-! ### Lines -/

/-- The mnemonic and the operands as they are written, one text each. -/
def asmFields : Instr → List String
  | .nop => ["NOP"]
  | .debSample i lvl => ["DEB.SAMPLE", Nat.repr i.toNat, bitText (lvl.getLsbD 0)]
  | .qdecStep e raw => ["QDEC.STEP", bitText (e == 1), rawText raw]
  | .tbTick => ["TB.TICK"]
  | .tbEn b => ["TB.EN", bitText b]
  | .edMin ent st => ["ED.MIN", entityText ent, stepText st]
  | .edHour ent st => ["ED.HOUR", entityText ent, stepText st]
  | .edMer ent => ["ED.MER", entityText ent]
  | .alTen => ["AL.TEN"]
  | .alSnooze => ["AL.SNOOZE"]
  | .alDismiss => ["AL.DISMISS"]
  | .fmt mode => ["FMT", modeText mode]
  | .muxStep mode => ["MUX.STEP", modeText mode]

theorem lineFields_asm (i : Instr) : lineFields (asm i) = asmFields i := by
  cases i with
  | debSample i lvl => revert i lvl; decide
  | qdecStep e raw => revert e raw; decide
  | tbEn b => cases b <;> decide
  | edMin ent st => cases ent <;> revert st <;> decide
  | edHour ent st => cases ent <;> revert st <;> decide
  | edMer ent => cases ent <;> decide
  | fmt mode => cases mode <;> decide
  | muxStep mode => cases mode <;> decide
  | _ => decide

/-- The fields of an operation that breaks no constraint are those of its line alone (30_encoding.md R76). -/
theorem readFields_asmFields {i : Instr} (h : i.broken = none) : readFields Config.params (asmFields i) = some [i] := by
  have stepCode_ne {st : BitVec 2} (hst : (if st = 0b10#2 then some Reserved.reservedStepCode else none) = none) :
      st ≠ 0b10#2 := fun hc => by
    rw [if_pos hc] at hst
    nomatch hst
  cases i with
  | debSample i lvl =>
    show ((readButton 8 (Nat.repr i.toNat)).bind fun i =>
      (readBit (bitText (lvl.getLsbD 0))).map fun l => [Instr.debSample i (BitVec.ofBool l)]) = _
    rw [readButton_repr i (lt_numButtons_of_broken h), readBit_bitText, Option.bind_some, Option.map_some,
      ofBool_level]
  | qdecStep e raw =>
    show ((readBit (bitText (e == 1))).bind fun e =>
      (readRaw (rawText raw)).map fun r => [Instr.qdecStep (encoderOfBit e) r]) = _
    rw [readBit_bitText, readRaw_rawText, Option.bind_some, Option.map_some, encoderOfBit_beq]
  | tbEn b =>
    show ((readBit (bitText b)).map fun b => [Instr.tbEn b]) = _
    rw [readBit_bitText, Option.map_some]
  | edMin ent st =>
    show ((readEntity (entityText ent)).bind fun ent =>
      (readStep (stepText st)).map fun st => [Instr.edMin ent st]) = _
    rw [readEntity_entityText, readStep_stepText st (stepCode_ne h), Option.bind_some, Option.map_some]
  | edHour ent st =>
    show ((readEntity (entityText ent)).bind fun ent =>
      (readStep (stepText st)).map fun st => [Instr.edHour ent st]) = _
    rw [readEntity_entityText, readStep_stepText st (stepCode_ne h), Option.bind_some, Option.map_some]
  | edMer ent =>
    show ((readEntity (entityText ent)).map fun ent => [Instr.edMer ent]) = _
    rw [readEntity_entityText, Option.map_some]
  | fmt mode =>
    show ((readMode (modeText mode)).map fun mode => [Instr.fmt mode]) = _
    rw [readMode_modeText, Option.map_some]
  | muxStep mode =>
    show ((readMode (modeText mode)).map fun mode => [Instr.muxStep mode]) = _
    rw [readMode_modeText, Option.map_some]
  | _ => rfl

end Sys2Proof.Machine

open Sys2Proof Sys2Proof.Machine

/-- Settles O7: the line splits into the fields it is written from, and they read back. -/
theorem assemblyOfAnOperationReadsBack : Obligations.AssemblyOfAnOperationReadsBack := by
  unfold Obligations.AssemblyOfAnOperationReadsBack
  intro i hwf
  rw [assembleLine, lineFields_asm, readFields_asmFields (Option.isNone_iff_eq_none.1 hwf)]

end
